-- ==== Sys2Proof/Word.lean ====
section
/-! DEFINITION. The one datum of the block: a byte of 8 bits (R16, R28).
Indices, counters and lengths are natural numbers without a bound (R7) and need no word type. -/

namespace Sys2Proof

/-- One byte: an instruction, a tape cell, an input byte or an output byte (R28). -/
abbrev Byte := BitVec 8

end Sys2Proof
end

