-- ==== Sys2Proof/Config.lean ====
section
/-! DEFINITION. What is fixed for a run (R4, R5, R6, R12): the launch data the host supplies before reset, the
end-of-input policies, and the launch that `State.reset` stands on. -/

namespace Sys2Proof

/-- `INPUT_POLICY` (R5): what the Input instruction does at the end of the input. -/
inductive InputPolicy where
  /-- R68, the default: the cursor wraps to the start of the input. -/
  | wrap
  /-- R69: the end of the input raises `InputExhausted`. -/
  | fault
  /-- R70: at the end of the input the cell becomes 0. -/
  | zero
  /-- R71: at the end of the input the cell keeps its value. -/
  | unchanged
  deriving DecidableEq, Repr

/-- The launch data of a run (R6, R11, R12, R96): the host supplies it before reset and no step writes it. -/
structure Launch where
  /-- `PROG`, any finite byte sequence (R6, C8). -/
  prog : List Byte
  /-- `INPUT`, any finite byte sequence (R6). -/
  input : List Byte
  /-- `TAPE_LEN`, at least 1 (R4); `Launch.wellFormed` states the bound. -/
  tapeLen : Nat
  /-- `INPUT_POLICY` (R5). -/
  policy : InputPolicy
  deriving DecidableEq, Repr

/-- How many cells the tape of `State.reset` has beyond its first one.
The spec leaves `TAPE_LEN` open (R4, D3), so this constant has no body and nothing can be proved of its value.
DESIGN CHOICE, safe: notes/assumptions/2.md. -/
opaque Config.extraCells : Nat

/-- `TAPE_LEN` of the launch that `State.reset` stands on: an open number of cells, at least 1 (R4). -/
def Config.tapeLen : Nat := Config.extraCells + 1

/-- The default `INPUT_POLICY`, `Wrap` (R5). -/
def Config.policy : InputPolicy := .wrap

/-- The value of a cell that nothing has written since reset (R16, D5). -/
def Config.initialCell : Byte := 0

/-- The launch that `State.reset` stands on: nothing loaded (R6: both sequences may be empty), the open tape length
and the default policy.
DESIGN CHOICE, safe: notes/assumptions/3.md. -/
def Config.launch : Launch :=
  { prog := [], input := [], tapeLen := Config.tapeLen, policy := Config.policy }

end Sys2Proof
end

