-- ==== Sys2Proof/Machine/State.lean ====
section
/-! DEFINITION. The state of the block as plain data (R10), the launch data it carries (R11, R12), the reasons a step
of the model stops, and the reset state (R94). -/

namespace Sys2Proof.Machine

/-- `STATUS` (R19). -/
inductive Status where
  /-- The run continues. -/
  | running
  /-- `IP` reached `PROG_LEN`: success. -/
  | halted
  /-- A fault ended the run. -/
  | faulted
  deriving DecidableEq, Repr

/-- `FAULT`, the fault record (R20): `None` until a fault, then the error with its position. -/
inductive FaultRecord where
  /-- No fault so far. -/
  | none
  /-- R84: the byte fetched at `pos` is outside the alphabet. -/
  | invalidInstruction (byte : Byte) (pos : Nat)
  /-- R85: the scan of the taken bracket at `pos` ran off the program. -/
  | bracketMismatch (pos : Nat)
  /-- R86: the `,` at `pos` found no input byte and the policy has no other answer. -/
  | inputExhausted (pos : Nat)
  deriving DecidableEq, Repr

/-- What `execute` returns when a run has ended (R8, R60): the output or the error, never both. -/
inductive RunResult where
  /-- `Ok(OUT)`: the run halted. -/
  | ok (out : List Byte)
  /-- `Err(FAULT)`: the run faulted. -/
  | err (fault : FaultRecord)
  deriving DecidableEq, Repr

/-- The TAPE's cells as (index, value) pairs in one canonical form: indices strictly rising, no pair that holds
`Config.initialCell`, which is what an unlisted cell holds (R16).  `Memory.wf` states the form.
DESIGN CHOICE (the form), safe: notes/assumptions/6.md. -/
abbrev Memory := List Host.Cell

/-- The state of the block (R10) with the launch data of its run (R11, R12). -/
structure State where
  /-- `PROG`, `INPUT`, `TAPE_LEN` and `INPUT_POLICY`: launch data, which no step writes (R11, R12).
  DESIGN CHOICE, safe: notes/assumptions/1.md. -/
  launch : Launch
  /-- `TAPE` (R16): exactly the cells `0 .. TAPE_LEN-1`. -/
  tape : Memory
  /-- `DP`, the data pointer (R15). -/
  dp : Nat
  /-- `IP`, the instruction pointer (R14). -/
  ip : Nat
  /-- `IC`, the input cursor (R17). -/
  ic : Nat
  /-- `OUT`, the output sequence, oldest byte first (R18). -/
  out : List Byte
  /-- `STATUS` (R19). -/
  status : Status
  /-- `FAULT` (R20). -/
  fault : FaultRecord
  deriving DecidableEq, Repr

/-- `PROG` (R6). -/
abbrev State.prog (s : State) : List Byte := s.launch.prog

/-- `PROG_LEN` (R6). -/
abbrev State.progLen (s : State) : Nat := s.launch.prog.length

/-- `INPUT` (R6). -/
abbrev State.input (s : State) : List Byte := s.launch.input

/-- `INPUT_LEN` (R6). -/
abbrev State.inputLen (s : State) : Nat := s.launch.input.length

/-- `TAPE_LEN` (R4). -/
abbrev State.tapeLen (s : State) : Nat := s.launch.tapeLen

/-- `INPUT_POLICY` (R5). -/
abbrev State.policy (s : State) : InputPolicy := s.launch.policy

/-- Why a step of the MODEL has no next state.
These are not the block's own faults: a fault of the block (R82) is a next state with `STATUS = Faulted` (R88).
DESIGN CHOICE, safe: notes/assumptions/5.md. -/
inductive Fault where
  /-- Raised by `readCell` and `writeCell` when `DP >= TAPE_LEN`: the tape has no such cell (R16, R25).
  Safe: R15 and R27 say it cannot happen, and no state that meets `State.Inv` raises it. -/
  | cellOutsideTape (index : Nat)
  /-- Raised by `takeInput` when the byte at `IC` is asked for and `IC >= INPUT_LEN`: there is no such byte (R25).
  Safe: R17 and R27 say it cannot happen, and no state that meets `State.Inv` raises it. -/
  | byteOutsideInput (index : Nat)
  /-- Answered by `step` when `STATUS = Halted`: no step is defined there (R51, R59).
  Safe: nothing changes after a run has ended. -/
  | runHasHalted
  /-- Answered by `step` when `STATUS = Faulted`: no step is defined there (R51, R59, R89).
  Safe: nothing changes after a run has ended. -/
  | runHasFaulted
  deriving DecidableEq, Repr

/-- Why the model gives an instruction no meaning. -/
inductive Refusal where
  /-- Only a rejected arm of `exec` answers this; every instruction of the table has its meaning, so none does.
  Safe: it would stop where the block goes on. -/
  | notModelled (mnemonic : String)
  deriving DecidableEq, Repr

/-- What a meaning or a step answers. -/
abbrev Result := Host.Outcome State Fault Refusal

/-- The reset state of a run with launch data `l` (R94, R95): every value is the one R94 gives. -/
def State.start (l : Launch) : State :=
  { launch := l, tape := [], dp := 0, ip := 0, ic := 0, out := [], status := .running, fault := .none }

/-- The machine right after reset (R94) with nothing loaded: the launch data are those of `Config.launch`. -/
def State.reset : State := State.start Config.launch

end Sys2Proof.Machine
end

