-- ==== Sys2Proof/Machine/Ops.lean ====
section
/-! DEFINITION. The named operations over the four address spaces (R25), over the registers, and the one shared fault
entry (R88).  There is no return from a fault (R89): `Faulted` is terminal, so no operation beside it leaves it. -/

namespace Sys2Proof.Machine

/-! ## TAPE as a memory in canonical form -/

/-- The canonical form from index `lo` on: indices rise strictly and no listed cell holds the initial value. -/
def Memory.wfFrom : Nat → Memory → Bool
  | _, [] => true
  | lo, (k, v) :: rest => decide (lo ≤ k) && v != Config.initialCell && Memory.wfFrom (k + 1) rest

/-- The memory is in its canonical form. -/
def Memory.wf (m : Memory) : Bool := Memory.wfFrom 0 m

/-- Every listed cell lies below index `n`. -/
def Memory.below (n : Nat) (m : Memory) : Bool := m.all fun c => decide (c.1 < n)

/-- `TapeRead(a)`: an unlisted cell holds the initial value (R16).
The bound `a < TAPE_LEN` is checked by the operand forms. -/
def Memory.read : Memory → Nat → Byte
  | [], _ => Config.initialCell
  | (k, v) :: rest, a => if a = k then v else Memory.read rest a

/-- `TapeWrite(a, v)`: writing the initial value unlists the cell, so that equal tapes are equal lists. -/
def Memory.write : Memory → Nat → Byte → Memory
  | [], a, v => if v = Config.initialCell then [] else [(a, v)]
  | (k, w) :: rest, a, v =>
    if a < k then
      if v = Config.initialCell then (k, w) :: rest else (a, v) :: (k, w) :: rest
    else if a = k then
      if v = Config.initialCell then rest else (a, v) :: rest
    else (k, w) :: Memory.write rest a v

/-- The value of the cell at index `a`. -/
def State.cell (s : State) (a : Nat) : Byte := Memory.read s.tape a

/-! ## PROGRAM and INPUT: read-only, no side effect (R25, R31) -/

/-- `ProgRead(i)`; none outside `[0, PROG_LEN)`. -/
def progRead (prog : List Byte) (i : Nat) : Option Byte := prog[i]?

/-- `InRead(i)`; none outside `[0, INPUT_LEN)`. -/
def inRead (input : List Byte) (i : Nat) : Option Byte := input[i]?

/-! ## Register and sequence updates -/

/-- `IP <- target`. -/
def State.setIp (s : State) (target : Nat) : State := { s with ip := target }

/-- `IP <- IP + 1`, the advance after every dispatch that does not fault (R56). -/
def State.advance (s : State) : State := s.setIp (s.ip + 1)

/-- `DP <- index`. -/
def State.setDp (s : State) (index : Nat) : State := { s with dp := index }

/-- `IC <- index`. -/
def State.setIc (s : State) (index : Nat) : State := { s with ic := index }

/-- `TapeWrite(DP, v)`. -/
def State.setCell (s : State) (v : Byte) : State := { s with tape := Memory.write s.tape s.dp v }

/-- `OutAppend(v)`: no capacity limit (R18, D12). -/
def State.outAppend (s : State) (v : Byte) : State := { s with out := s.out ++ [v] }

/-- `STATUS <- Halted`, all the halt check writes (R52). -/
def State.halt (s : State) : State := { s with status := .halted }

/-! ## Fault entry -/

/-- `raise Fault(...)` (R88): the record and `STATUS` are written, and nothing else; `IP` stays at the faulting
instruction (D9). -/
def State.raise (s : State) (r : FaultRecord) : State := { s with fault := r, status := .faulted }

/-! ## The register views of STATUS and FAULT (R19, R20, R82, D10) -/

/-- The 2-bit code of `STATUS` (R19). -/
def Status.code : Status → BitVec 2
  | .running => 0b00
  | .halted => 0b01
  | .faulted => 0b10

/-- `FAULT_CAUSE` (R20, R82). -/
def FaultRecord.cause : FaultRecord → BitVec 2
  | .none => 0
  | .invalidInstruction _ _ => 1
  | .bracketMismatch _ => 2
  | .inputExhausted _ => 3

/-- `FAULT_BYTE` (R20): the offending byte for `InvalidInstruction`, 0 for every other cause. -/
def FaultRecord.byte : FaultRecord → Byte
  | .none => 0
  | .invalidInstruction b _ => b
  | .bracketMismatch _ => 0
  | .inputExhausted _ => 0

/-- `FAULT_POS` (R20): the position of the faulting instruction, 0 when there is no fault. -/
def FaultRecord.pos : FaultRecord → Nat
  | .none => 0
  | .invalidInstruction _ p => p
  | .bracketMismatch p => p
  | .inputExhausted p => p

end Sys2Proof.Machine
end

