-- ==== Sys2Proof/Machine/Operands.lean ====
section
/-! DEFINITION. The implicit operands of the instructions (R13, R26, R38): the current cell `TAPE[DP]`, the byte of
INPUT at `IC`, and the data pointer itself.  There is no other operand form. -/

namespace Sys2Proof.Machine

/-- `TapeRead(DP)`, given to `k`; the tape has no cell at `DP >= TAPE_LEN` (R16). -/
def readCell (s : State) (k : Byte → Result) : Result :=
  if s.dp < s.tapeLen then k (s.cell s.dp) else .fault (.cellOutsideTape s.dp)

/-- `TapeWrite(DP, v)`, the state after it given to `k`; the tape has no cell at `DP >= TAPE_LEN` (R16). -/
def writeCell (s : State) (v : Byte) (k : State → Result) : Result :=
  if s.dp < s.tapeLen then k (s.setCell v) else .fault (.cellOutsideTape s.dp)

/-- `InRead(IC)`, given to `k`; INPUT has no byte at `IC >= INPUT_LEN` (R25). -/
def takeInput (s : State) (k : Byte → Result) : Result :=
  match inRead s.input s.ic with
  | some b => k b
  | none => .fault (.byteOutsideInput s.ic)

/-- The index one cell right on a tape of `n` cells: `(p + 1) mod n` (R64).
`n = 0` is no tape (R4): notes/assumptions/7.md. -/
def indexRight (n p : Nat) : Nat := (p + 1) % n

/-- The index one cell left on a tape of `n` cells: `(p - 1 + n) mod n` (R65).
The sum comes first, since a natural number has no predecessor below 0. -/
def indexLeft (n p : Nat) : Nat := (p + n - 1) % n

end Sys2Proof.Machine
end

