-- ==== Sys2Proof/Machine/ByteIO.lean ====
section
/-! DEFINITION. Byte I/O: `.` and `,` (R66 to R71).  The byte appended or stored is the byte read. -/

namespace Sys2Proof.Machine

/-- `.` (R66): `OutAppend(TapeRead(DP))`. -/
def execOutput (s : State) : Result :=
  readCell s fun v => .next (s.outAppend v).advance

/-- `TapeWrite(DP, InRead(IC))`, then `IC <- ic'`, then the advance: what every policy does while there is a byte. -/
def storeInput (ic' : Nat) (s : State) : Result :=
  takeInput s fun b => writeCell s b fun s' => .next (s'.setIc ic').advance

/-- `raise Fault(InputExhausted, -, IP)` (R86); the advance does not run (R88). -/
def raiseInputExhausted (s : State) : Result := .next (s.raise (.inputExhausted s.ip))

/-- Policy `Wrap` (R68): a circular cursor; an empty INPUT raises `InputExhausted` (D7). -/
def inputWrap (s : State) : Result :=
  if s.inputLen = 0 then raiseInputExhausted s else storeInput ((s.ic + 1) % s.inputLen) s

/-- Policy `Fault` (R69). -/
def inputFault (s : State) : Result :=
  if s.inputLen ≤ s.ic then raiseInputExhausted s else storeInput (s.ic + 1) s

/-- Policy `Zero` (R70): at the end of the input the cell is set to 0 and `IC` stays (D21). -/
def inputZero (s : State) : Result :=
  if s.inputLen ≤ s.ic then writeCell s 0 fun s' => .next s'.advance else storeInput (s.ic + 1) s

/-- Policy `Unchanged` (R71): at the end of the input nothing changes but `IP` (D21). -/
def inputUnchanged (s : State) : Result :=
  if s.inputLen ≤ s.ic then .next s.advance else storeInput (s.ic + 1) s

/-- `,` (R67): `InputStep` under the launch's `INPUT_POLICY`. -/
def execInput (s : State) : Result :=
  match s.policy with
  | .wrap => inputWrap s
  | .fault => inputFault s
  | .zero => inputZero s
  | .unchanged => inputUnchanged s

end Sys2Proof.Machine
end

