-- ==== Sys2Proof/Machine/CellArith.lean ====
section
/-! DEFINITION. Cell arithmetic: `+` and `-` (R62, R63).  One read-modify-write of the current cell (R30), addition
modulo 256, no flag and no fault. -/

namespace Sys2Proof.Machine

/-- `TapeWrite(DP, (TapeRead(DP) + d) mod 256)` and the advance, shared by the two. -/
def addToCell (d : Byte) (s : State) : Result :=
  readCell s fun v => writeCell s (v + d) fun s' => .next s'.advance

/-- `+` (R62): `(v + 1) mod 256`. -/
def execAdd (s : State) : Result := addToCell 1 s

/-- `-` (R63): `(v + 255) mod 256`. -/
def execSubtract (s : State) : Result := addToCell 255 s

end Sys2Proof.Machine
end

