-- ==== Sys2Proof/Syntax.lean ====
section
/-! DEFINITION. The instruction set: the 8 symbols of the alphabet (R40, R43), one constructor for each row of the
opcode map.  No instruction has an operand field (R38): every operand is implicit. -/

namespace Sys2Proof

/-- An instruction of the block (R40, R42). -/
inductive Instr where
  /-- `+`, kind Add (R62). -/
  | add
  /-- `-`, kind Subtract (R63). -/
  | subtract
  /-- `>`, kind Increment, "move_right" (R64). -/
  | moveRight
  /-- `<`, kind Decrement, "move_left" (R65). -/
  | moveLeft
  /-- `.`, kind Output (R66). -/
  | output
  /-- `,`, kind Input (R67). -/
  | input
  /-- `[`, kind Jump with the literal byte `[` (R45, R72). -/
  | openBracket
  /-- `]`, kind Jump with the literal byte `]` (R45, R73). -/
  | closeBracket
  deriving DecidableEq, Repr

end Sys2Proof
end

