-- ==== Sys2Proof/Decode.lean ====
section
/-! DEFINITION. The decoder (R44 to R49), the encoder written from the same opcode map (R43), the decoder's output
lines (R49) and the program text (R50).  Every instruction is one byte and the whole byte is the opcode (R37). -/

namespace Sys2Proof

/-- The byte of `[` (R43). -/
def openBracketByte : Byte := 0x5B

/-- The byte of `]` (R43). -/
def closeBracketByte : Byte := 0x5D

/-- What the decoder answers (R44, R48): an instruction, or the verdict `Invalid` that rejects the byte by name. -/
inductive Verdict where
  /-- The byte is a symbol of the alphabet and stands for this instruction. -/
  | valid (i : Instr)
  /-- The byte is one of the 248 outside the alphabet (R46): `InvalidInstruction` if it is executed. -/
  | invalidInstruction (byte : Byte)
  deriving DecidableEq, Repr

/-- `decode(byte)` (R43, R44): total over all 256 byte values, a function of the one byte. -/
def decode (b : Byte) : Verdict :=
  if b = 0x2B then .valid .add
  else if b = 0x2D then .valid .subtract
  else if b = 0x3E then .valid .moveRight
  else if b = 0x3C then .valid .moveLeft
  else if b = 0x2E then .valid .output
  else if b = 0x2C then .valid .input
  else if b = openBracketByte then .valid .openBracket
  else if b = closeBracketByte then .valid .closeBracket
  else .invalidInstruction b

/-- The byte of an instruction, from the opcode map of R43. -/
def encode : Instr → Byte
  | .add => 0x2B
  | .subtract => 0x2D
  | .moveRight => 0x3E
  | .moveLeft => 0x3C
  | .output => 0x2E
  | .input => 0x2C
  | .openBracket => openBracketByte
  | .closeBracket => closeBracketByte

/-- The instruction the decoder reads from a table word: the first `nbits` bits of `w`, one byte here (R37).
DESIGN CHOICE (bits beyond the first byte are not read), safe: notes/assumptions/12.md. -/
def decodeTableWord (nbits w : Nat) : Option Instr :=
  match decode (BitVec.ofNat 8 (w % 2 ^ nbits)) with
  | .valid i => some i
  | .invalidInstruction _ => none

/-- The 7 operation kinds (R41): the two brackets share the kind Jump, which carries its literal byte (R45). -/
inductive OpKind where
  | add
  | subtract
  | increment
  | decrement
  | output
  | input
  | jump (literal : Byte)
  deriving DecidableEq, Repr

/-- The kind of each instruction (R42, R45). -/
def Instr.kind : Instr → OpKind
  | .add => .add
  | .subtract => .subtract
  | .moveRight => .increment
  | .moveLeft => .decrement
  | .output => .output
  | .input => .input
  | .openBracket => .jump openBracketByte
  | .closeBracket => .jump closeBracketByte

/-- The 3-bit code of each kind (R49, D15); code 7 is never produced. -/
def OpKind.code : OpKind → BitVec 3
  | .add => 0
  | .subtract => 1
  | .increment => 2
  | .decrement => 3
  | .output => 4
  | .input => 5
  | .jump _ => 6

/-- What travels from the decoder to the dispatch (R49): the kind code, the valid bit and the literal byte. -/
structure DecoderLines where
  kind : BitVec 3
  valid : Bool
  literal : Byte
  deriving DecidableEq, Repr

/-- The decoder's output lines for a byte (R49); `valid` false means Invalid, and the kind code is then 0.
These lines are internal to the block and cannot be observed: the step does not go through them.
DESIGN CHOICE (the kind code beside `valid` false), safe: notes/assumptions/10.md. -/
def decoderLines (b : Byte) : DecoderLines :=
  match decode b with
  | .valid i => { kind := i.kind.code, valid := true, literal := b }
  | .invalidInstruction _ => { kind := 0, valid := false, literal := b }

/-- The bytes of a sequence of instructions, one byte each (R37). -/
def assemble (is : List Instr) : List Byte := is.map encode

/-- The byte sequence a program text denotes: its characters' ASCII codes in order (R50, D1, G6).
A character without an ASCII code denotes no byte, and then the text denotes no program.
DESIGN CHOICE (the answer `none`), safe: notes/assumptions/10.md. -/
def textBytes : List Char → Option (List Byte)
  | [] => some []
  | c :: rest =>
    if c.toNat < 128 then (textBytes rest).map (BitVec.ofNat 8 c.toNat :: ·) else none

end Sys2Proof
end

