-- ==== Sys2Proof/Machine/Flags.lean ====
section
/-! DEFINITION. The block has no flags, condition codes or predicates (R21).  What stands here is the one condition an
instruction tests: the brackets' direct test of the current cell for zero (R21, R72, R73, R74). -/

namespace Sys2Proof.Machine

/-- The current cell is 0 (R21). -/
def cellIsZero (v : Byte) : Bool := v == 0

/-- The jump condition of the bracket with literal byte `c` on cell value `v` (R74): `[` jumps on 0, `]` jumps on
anything else, and no other byte jumps. -/
def jumpTaken (c v : Byte) : Bool :=
  (c == openBracketByte && cellIsZero v) || (c == closeBracketByte && !cellIsZero v)

end Sys2Proof.Machine
end

