-- ==== Sys2Proof/Machine/Resolver.lean ====
section
/-! DEFINITION. The Jump Resolver (R74 to R79): the nesting-count scans over the raw bytes of the program and the
resolver's contract.  It reads PROG and nothing else and writes no state. -/

namespace Sys2Proof.Machine

/-- The balance after a forward scan has read `b` (R75); every byte but the two brackets leaves it alone (R78). -/
def balanceForward (b : Byte) (bal : Nat) : Nat :=
  if b = openBracketByte then bal + 1 else if b = closeBracketByte then bal - 1 else bal

/-- The balance after a backward scan has read `b` (R76). -/
def balanceBackward (b : Byte) (bal : Nat) : Nat :=
  if b = closeBracketByte then bal + 1 else if b = openBracketByte then bal - 1 else bal

/-- The loop of `ScanForward` (R75) at index `j` with balance `bal`, where `rest` is the program from `j` on.
`none` says that the scan would read at `PROG_LEN` (R77). -/
def scanForwardFrom : List Byte → Nat → Nat → Option Nat
  | [], _, _ => none
  | b :: rest, j, bal =>
    if balanceForward b bal = 0 then some j else scanForwardFrom rest (j + 1) (balanceForward b bal)

/-- `ScanForward(p)` (R75): it starts at the byte after `p` with a balance of 1. -/
def scanForward (prog : List Byte) (p : Nat) : Option Nat :=
  scanForwardFrom (prog.drop (p + 1)) (p + 1) 1

/-- The loop of `ScanBackward` (R76); the first number is one more than the index `j` it reads next, so 0 says that
`j` lies before index 0.
`none` says that the scan would read outside the program (R77, R27); a scan from beyond the program's end is DEDUCED to
be one, safe: notes/assumptions/7.md. -/
def scanBackwardFrom (prog : List Byte) : Nat → Nat → Option Nat
  | 0, _ => none
  | j + 1, bal =>
    match progRead prog j with
    | none => none
    | some b =>
      if balanceBackward b bal = 0 then some j else scanBackwardFrom prog j (balanceBackward b bal)

/-- `ScanBackward(p)` (R76): it starts at the byte before `p` with a balance of 1. -/
def scanBackward (prog : List Byte) (p : Nat) : Option Nat :=
  scanBackwardFrom prog p 1

/-- `resolve(c, v, p, PROG)` (R74): the new IP before the advance, or `none` for `BracketMismatch` (R77).
A bracket whose jump is not taken is not checked for a match (R79). -/
def resolve (c v : Byte) (p : Nat) (prog : List Byte) : Option Nat :=
  if jumpTaken c v then
    if c = openBracketByte then scanForward prog p else scanBackward prog p
  else some p

end Sys2Proof.Machine
end

