-- ==== Sys2Proof/Machine/Jump.lean ====
section
/-! DEFINITION. Conditional jumps: `[` and `]` (R72, R73).  The resolver's result becomes IP and the loop's advance
lands one past it (R56, R99). -/

namespace Sys2Proof.Machine

/-- `IP <- resolve(c, TapeRead(DP), IP, PROG)` and the advance; a scan that runs off the program raises
`BracketMismatch(IP)` and the advance does not run (R77, R88). -/
def jumpBy (c : Byte) (s : State) : Result :=
  readCell s fun v =>
    match resolve c v s.ip s.prog with
    | some target => .next (s.setIp target).advance
    | none => .next (s.raise (.bracketMismatch s.ip))

/-- `[` (R72). -/
def execOpenBracket (s : State) : Result := jumpBy openBracketByte s

/-- `]` (R73). -/
def execCloseBracket (s : State) : Result := jumpBy closeBracketByte s

end Sys2Proof.Machine
end

