-- ==== Sys2Proof/Machine/Pointer.lean ====
section
/-! DEFINITION. Data-pointer movement: `>` and `<` (R64, R65).  No cell is accessed (R30) and no fault exists. -/

namespace Sys2Proof.Machine

/-- `DP <- index` and the advance, shared by the two. -/
def movePointer (index : Nat) (s : State) : Result := .next (s.setDp index).advance

/-- `>` (R64): `DP <- (DP + 1) mod TAPE_LEN`. -/
def execMoveRight (s : State) : Result := movePointer (indexRight s.tapeLen s.dp) s

/-- `<` (R65): `DP <- (DP - 1 + TAPE_LEN) mod TAPE_LEN`. -/
def execMoveLeft (s : State) : Result := movePointer (indexLeft s.tapeLen s.dp) s

end Sys2Proof.Machine
end

