-- ==== Sys2Proof/Machine/Dispatch.lean ====
section
/-! DEFINITION. The dispatch (R55): one arm for each instruction, each one direct call of its meaning. -/

namespace Sys2Proof.Machine

/-- The effect of an instruction on a state, its advance of `IP` included (R51, R55, R56).
It does not ask for `STATUS = Running`: the step does (R59).
DESIGN CHOICE, unsafe for a claim about `exec` where no run comes: notes/assumptions/7.md. -/
def exec (i : Instr) (s : State) : Host.Outcome State Fault Refusal :=
  match i with
  | .add => Sys2Proof.Machine.execAdd s
  | .subtract => Sys2Proof.Machine.execSubtract s
  | .moveRight => Sys2Proof.Machine.execMoveRight s
  | .moveLeft => Sys2Proof.Machine.execMoveLeft s
  | .output => Sys2Proof.Machine.execOutput s
  | .input => Sys2Proof.Machine.execInput s
  | .openBracket => Sys2Proof.Machine.execOpenBracket s
  | .closeBracket => Sys2Proof.Machine.execCloseBracket s

end Sys2Proof.Machine
end

