-- ==== Sys2Proof/Machine/Fetch.lean ====
section
/-! DEFINITION. Fetch and decode at `IP` (R52, R53, R54), and the placing of a byte where the next step fetches it. -/

namespace Sys2Proof.Machine

/-- What the head of a step finds (R51): the halt condition, an illegal byte, or an instruction. -/
inductive Fetched where
  /-- `IP >= PROG_LEN` (R52). -/
  | endOfProgram
  /-- The byte at `IP` is outside the alphabet (R54). -/
  | illegal (byte : Byte)
  /-- The byte at `IP` stands for this instruction (R55). -/
  | instr (i : Instr)
  deriving DecidableEq, Repr

/-- The head of a step: the halt check comes before any fetch (R52, R87), then `ProgRead(IP)` (R53), then the
decoder (R54). -/
def fetch (s : State) : Fetched :=
  match progRead s.prog s.ip with
  | none => .endOfProgram
  | some b =>
    match decode b with
    | .valid i => .instr i
    | .invalidInstruction byte => .illegal byte

/-- `PROG` with the byte `b` at index `i`; a program shorter than `i` is first filled up with zero bytes. -/
def progPlace (prog : List Byte) (i : Nat) (b : Byte) : List Byte :=
  prog.take i ++ List.replicate (i - prog.length) 0 ++ b :: prog.drop (i + 1)

/-- The state with the byte `b` placed at `IP` and the run in `Running` with no fault recorded, so that the next step
fetches `b`.
It stands for the host's load (R9, R96).
DESIGN CHOICE, safe: notes/assumptions/4.md. -/
def State.placeAtIp (s : State) (b : Byte) : State :=
  { s with
    launch := { s.launch with prog := progPlace s.prog s.ip b }
    status := .running
    fault := .none }

end Sys2Proof.Machine
end

