-- ==== Sys2Proof/Machine/Step.lean ====
section
/-! DEFINITION. One step of the Execution Loop (R51): atomic and deterministic (R57, R58), defined only in state
Running (R59). -/

namespace Sys2Proof.Machine

/-- One step (R51): the halt check, the fetch, the decoder, then the dispatched instruction with its advance.
A fault of the block is a next state (R88); from a terminal state there is no next state (R59). -/
def step (s : State) : Host.Outcome State Fault Refusal :=
  match s.status with
  | .halted => .fault .runHasHalted
  | .faulted => .fault .runHasFaulted
  | .running =>
    match fetch s with
    | .endOfProgram => .next s.halt
    | .illegal b => .next (s.raise (.invalidInstruction b s.ip))
    | .instr i => exec i s

/-- `s` with the instruction whose bits are the low `nbits` of `w`, one byte (R37), placed where the next step fetches
it. -/
def State.withFetchWord (s : State) (nbits w : Nat) : State :=
  s.placeAtIp (BitVec.ofNat 8 (w % 2 ^ nbits))

end Sys2Proof.Machine
end

