-- ==== Sys2Proof/Machine/Execute.lean ====
section
/-! DEFINITION. The block's one entry contract, `execute` (R8): a run from reset to its result (R60, R61), under a
number of steps the host is willing to wait (R9 "abandon", D20). -/

namespace Sys2Proof.Machine

/-- The result of a run that has ended (R60); a run in Running has none (R61).
On a fault the bytes in `OUT` are not returned (D13). -/
def State.result (s : State) : Option RunResult :=
  match s.status with
  | .running => none
  | .halted => some (.ok s.out)
  | .faulted => some (.err s.fault)

/-- At most `n` steps, none of them from a terminal state (R59). -/
def runFor : Nat → State → State
  | 0, s => s
  | n + 1, s =>
    match step s with
    | .next s' => runFor n s'
    | .fault _ => s
    | .refused _ => s

/-- `execute(program, input)` under launch data `l`, abandoned after `fuel` steps: every run starts from reset (R95),
and `none` says that the run has not ended yet, which is no result of the block (R61, D20).
DESIGN CHOICE (the fuel), safe: notes/assumptions/9.md. -/
def execute (fuel : Nat) (l : Launch) : Option RunResult :=
  (runFor fuel (State.start l)).result

end Sys2Proof.Machine
end

