-- ==== Sys2Proof/Machine/JumpTable.lean ====
section
/-! DEFINITION. The match table a realisation may use in place of the scans (R80): built once from PROG with a stack of
the open brackets.  The step of the model uses the scans; that the table resolves every jump as they do is stated as
an obligation. -/

namespace Sys2Proof.Machine

/-- The matched pairs (position of `[`, position of `]`) of a program read from index `j` on, with the positions of
the brackets still open, innermost first.
A `]` with no open bracket and a `[` that stays open are in no pair: they are marked as mismatched (R80). -/
def matchedPairs : List Byte → Nat → List Nat → List (Nat × Nat)
  | [], _, _ => []
  | b :: rest, j, stack =>
    if b = openBracketByte then matchedPairs rest (j + 1) (j :: stack)
    else if b = closeBracketByte then
      match stack with
      | [] => matchedPairs rest (j + 1) []
      | p :: stack' => (p, j) :: matchedPairs rest (j + 1) stack'
    else matchedPairs rest (j + 1) stack

/-- The match table of a program, computed at load time (R80). -/
def matchTable (prog : List Byte) : List (Nat × Nat) := matchedPairs prog 0 []

/-- The `]` that the table pairs with the `[` at `p`. -/
def tableForward (table : List (Nat × Nat)) (p : Nat) : Option Nat :=
  (table.find? fun e => e.1 == p).map Prod.snd

/-- The `[` that the table pairs with the `]` at `p`. -/
def tableBackward (table : List (Nat × Nat)) (p : Nat) : Option Nat :=
  (table.find? fun e => e.2 == p).map Prod.fst

/-- The resolver of a realisation with a table (R80): the fault is raised only when the jump is taken (R79). -/
def resolveByTable (table : List (Nat × Nat)) (c v : Byte) (p : Nat) : Option Nat :=
  if jumpTaken c v then
    if c = openBracketByte then tableForward table p else tableBackward table p
  else some p

end Sys2Proof.Machine
end

