-- ==== Sys2Proof/WellFormed.lean ====
section
/-! DEFINITION. What is well formed: an instruction (every one, R38), launch data (R4, R96), and the program's
precondition that its brackets balance (R97), which the block does not check. -/

namespace Sys2Proof

/-- An instruction has no operand, so there is nothing an instruction could have wrong (R38). -/
def Instr.wellFormed : Instr → Bool
  | .add | .subtract | .moveRight | .moveLeft | .output | .input | .openBracket | .closeBracket => true

/-- The one requirement on launch data: `TAPE_LEN >= 1` (R4, R96).
Any program and any input may be loaded (R6, R97). -/
def Launch.wellFormed (l : Launch) : Bool := decide (1 ≤ l.tapeLen)

/-- From nesting depth `d`, no `]` closes a bracket that is not open and every open bracket is closed at the end;
bytes other than the two brackets do not count. -/
def balancedFrom : Nat → List Byte → Bool
  | d, [] => d == 0
  | d, b :: rest =>
    if b = openBracketByte then balancedFrom (d + 1) rest
    else if b = closeBracketByte then
      match d with
      | 0 => false
      | d' + 1 => balancedFrom d' rest
    else balancedFrom d rest

/-- Balanced brackets (Glossary, R81, R97): every `[` has its own `]` at a greater position with correct nesting, and
vice versa.
DEDUCED, safe: notes/assumptions/13.md. -/
def balanced (prog : List Byte) : Bool := balancedFrom 0 prog

/-- `[` at `p` and `]` at `q` match each other: what stands strictly between them is balanced. -/
def matchingPair (prog : List Byte) (p q : Nat) : Bool :=
  decide (p < q) && prog[p]? == some openBracketByte && prog[q]? == some closeBracketByte &&
    balanced ((prog.take q).drop (p + 1))

end Sys2Proof
end

