-- ==== Sys2Proof/Safety.lean ====
section
/-! DEFINITION. The terms the claims use: the invariants of a run (R22), what a step leaves unchanged, the matching
bracket as a first zero of the nesting balance (R75, R76), and the mirrored tape (D2). -/

namespace Sys2Proof.Machine

/-! ## Invariants -/

/-- `IC` is in the range R17 gives for the policy (D21). -/
abbrev State.IcInRange (s : State) : Prop :=
  (s.policy = .wrap → s.inputLen ≠ 0 → s.ic < s.inputLen) ∧
  (s.policy = .wrap → s.inputLen = 0 → s.ic = 0) ∧
  (s.policy ≠ .wrap → s.ic ≤ s.inputLen)

/-- What holds in every reachable state of a run (R4, R22), with the canonical form of the tape (R16). -/
abbrev State.Inv (s : State) : Prop :=
  1 ≤ s.tapeLen ∧ s.dp < s.tapeLen ∧ s.ip ≤ s.progLen ∧ s.IcInRange ∧
  (s.status = .faulted ↔ s.fault ≠ .none) ∧
  Memory.wf s.tape = true ∧ Memory.below s.tapeLen s.tape = true

/-- The fault record tells the truth about the program: its position is `IP`, and the condition R82 gives for its
cause holds there. -/
def State.faultExplained (s : State) : Bool :=
  match s.fault with
  | .none => true
  | .invalidInstruction b p =>
    p == s.ip && progRead s.prog p == some b && decode b == .invalidInstruction b
  | .bracketMismatch p =>
    p == s.ip &&
      ((progRead s.prog p == some openBracketByte && s.cell s.dp == 0 && scanForward s.prog p == none) ||
       (progRead s.prog p == some closeBracketByte && s.cell s.dp != 0 && scanBackward s.prog p == none))
  | .inputExhausted p =>
    p == s.ip && progRead s.prog p == some (encode .input) &&
      ((s.policy == .wrap && s.inputLen == 0) || (s.policy == .fault && s.ic == s.inputLen))

/-- An ended run shows why it ended: `Halted` at the end of the program (R52), `Faulted` with a true record (R82). -/
abbrev State.EndExplained (s : State) : Prop :=
  (s.status = .halted → s.ip = s.progLen) ∧ s.faultExplained = true

/-! ## Frames -/

/-- Every cell reads the same in both states. -/
def State.SameTape (s t : State) : Prop := ∀ a, t.cell a = s.cell a

/-- Every cell but the one at `x` reads the same in both states. -/
def State.SameTapeBut (s t : State) (x : Nat) : Prop := ∀ a, a ≠ x → t.cell a = s.cell a

/-- The launch data, `STATUS` and `FAULT` are the same in both states. -/
def State.SameRun (s t : State) : Prop := t.launch = s.launch ∧ t.status = s.status ∧ t.fault = s.fault

/-- `t` is `s` after `,` has stored the byte at the cursor in the current cell, with the cursor at `ic'` (R67). -/
def State.StoredInput (s t : State) (ic' : Nat) : Prop :=
  (∃ b, s.input[s.ic]? = some b ∧ t.cell s.dp = b) ∧ s.SameTapeBut t s.dp ∧ t.ic = ic' ∧
  t.ip = s.ip + 1 ∧ t.dp = s.dp ∧ t.out = s.out ∧ s.SameRun t

/-- What an outcome shows of everything but `STATUS` and `FAULT`. -/
def withoutStatus : Result → Result
  | .next t => .next { t with status := .running, fault := .none }
  | .fault r => .fault r
  | .refused r => .refused r

/-! ## The matching bracket -/

/-- The balance of a forward scan from `p` when it has read `p+1 .. j` (R75): 1, plus the `[` read, less the `]`. -/
def forwardBalance (prog : List Byte) (p j : Nat) : Int :=
  1 + ((prog.take (j + 1)).drop (p + 1)).count openBracketByte
    - ((prog.take (j + 1)).drop (p + 1)).count closeBracketByte

/-- The balance of a backward scan from `p` when it has read `p-1` down to `j` (R76): 1, plus the `]`, less the `[`. -/
def backwardBalance (prog : List Byte) (p j : Nat) : Int :=
  1 + ((prog.take p).drop j).count closeBracketByte - ((prog.take p).drop j).count openBracketByte

/-- `q` is the first index after `p`, inside the program, where the forward balance is 0 (R75). -/
def FirstZeroForward (prog : List Byte) (p q : Nat) : Prop :=
  p < q ∧ q < prog.length ∧ forwardBalance prog p q = 0 ∧
  ∀ j, p < j → j < q → forwardBalance prog p j ≠ 0

/-- `q` is the first index before `p`, counted downwards, where the backward balance is 0 (R76). -/
def FirstZeroBackward (prog : List Byte) (p q : Nat) : Prop :=
  q < p ∧ backwardBalance prog p q = 0 ∧ ∀ j, q < j → j < p → backwardBalance prog p j ≠ 0

/-! ## The mirrored tape (V-MIRROR, D2) -/

/-- `m(p) = (n - p) mod n` on a tape of `n` cells. -/
def mirrorIndex (n p : Nat) : Nat := (n - p) % n

/-- `<` and `>` exchanged, every other byte as it is. -/
def mirrorByte (b : Byte) : Byte :=
  if b = encode .moveRight then encode .moveLeft
  else if b = encode .moveLeft then encode .moveRight
  else b

end Sys2Proof.Machine

namespace Sys2Proof

/-- The launch whose program has every `<` and `>` exchanged (V-MIRROR). -/
def Launch.mirror (l : Launch) : Launch := { l with prog := l.prog.map Machine.mirrorByte }

/-- `t` is `s` with the program's moves exchanged and the tape mirrored (V-MIRROR). -/
def Machine.State.Mirrored (s t : Machine.State) : Prop :=
  t.launch = s.launch.mirror ∧ t.dp = Machine.mirrorIndex s.tapeLen s.dp ∧
  (∀ a, a < s.tapeLen → t.cell (Machine.mirrorIndex s.tapeLen a) = s.cell a) ∧
  t.ip = s.ip ∧ t.ic = s.ic ∧ t.out = s.out ∧ t.status = s.status ∧ t.fault = s.fault

end Sys2Proof
end

