-- ==== Sys2Proof/Certificates/Slice0/Obligations.lean ====
section
/-! DEFINITION. The statements for the provers, from the numbered rules of spec/.  Where a statement rests on a
decision that the spec marks as its own (D<n> of spec/92_eei_decisions.md), its docstring names it. -/

open Sys2Proof Sys2Proof.Machine

/-! ## Encoding -/

/-- Words written out from the opcode map (R43) and the neighbours of V-DEC.
The byte values are the spec's own decision D1 ("ASCII codes"). -/
def Obligations.SampleBytesDecode : Prop :=
  decode 0b00101011 = .valid .add ∧ decode 0b00101101 = .valid .subtract ∧
  decode 0b00111110 = .valid .moveRight ∧ decode 0b00111100 = .valid .moveLeft ∧
  decode 0b00101110 = .valid .output ∧ decode 0b00101100 = .valid .input ∧
  decode 0b01011011 = .valid .openBracket ∧ decode 0b01011101 = .valid .closeBracket ∧
  decode 0x0A = .invalidInstruction 0x0A ∧ decode 0xAB = .invalidInstruction 0xAB

/-- R46, R48: exactly the 8 symbols decode, and every other byte is rejected with the byte itself.
The byte values are the spec's own decision D1. -/
def Obligations.DecoderAcceptsExactlyTheAlphabet : Prop :=
  ∀ b : Byte,
    ((∃ i, decode b = .valid i) ↔ b ∈ ([0x2B, 0x2C, 0x2D, 0x2E, 0x3C, 0x3E, 0x5B, 0x5D] : List Byte)) ∧
    ((∀ i, decode b ≠ .valid i) → decode b = .invalidInstruction b)

/-- R41, R45, R49: the decoder's lines carry the literal byte and a valid bit that says whether the byte decodes; kind
code 7 is never produced, and two different instructions share a code exactly when both are brackets.
The codes are the spec's own decision D15. -/
def Obligations.DecoderLinesFollowTheDecoder : Prop :=
  ∀ b : Byte,
    (decoderLines b).literal = b ∧ (decoderLines b).kind ≠ 7 ∧
    ((decoderLines b).valid = true ↔ ∃ i, decode b = .valid i) ∧
    (∀ i, decode b = .valid i → (decoderLines b).kind = i.kind.code) ∧
    (∀ i j : Instr, i ≠ j →
      (i.kind.code = j.kind.code ↔
        (i = .openBracket ∨ i = .closeBracket) ∧ (j = .openBracket ∨ j = .closeBracket)))

/-- R37, R39, R44: a program's bytes decode to its instructions, every instruction is well formed, and a byte sequence
that decodes throughout is the encoding of what it decodes to: no bit of any encoding is dropped.
The byte values are the spec's own decision D1. -/
def Obligations.ProgramEncodingRoundTrips : Prop :=
  (∀ is : List Instr, (assemble is).map decode = is.map .valid ∧ ∀ i ∈ is, i.wellFormed = true) ∧
  (∀ (bytes : List Byte) (is : List Instr), bytes.map decode = is.map .valid → bytes = assemble is)

/-! ## The step -/

/-- R51, R53, R55: in state Running, where the byte at `IP` decodes to a well-formed instruction, the step is that
instruction's meaning on that state.
The advance of `IP` is inside the meaning, so the step adds nothing around it. -/
def Obligations.StepRunsTheDecodedInstruction : Prop :=
  ∀ (s : State) (b : Byte) (i : Instr),
    s.status = .running → progRead s.prog s.ip = some b → decode b = .valid i → i.wellFormed = true →
    step s = exec i s

/-- The byte that `withFetchWord` places is the one the next step runs.
That placing a byte stands for the host's load is the model's choice (notes/assumptions/4.md). -/
def Obligations.PlacedWordRunsNext : Prop :=
  ∀ (s : State) (w : Nat) (i : Instr),
    decodeTableWord 8 w = some i → step (s.withFetchWord 8 w) = exec i (s.withFetchWord 8 w)

/-- R52: the halt check comes first, and when it holds the step writes only `STATUS <- Halted`. -/
def Obligations.HaltCheckWritesOnlyStatus : Prop :=
  ∀ s : State, s.status = .running → s.progLen ≤ s.ip → step s = .next { s with status := .halted }

/-- R59: no step is defined from Halted or Faulted, and no state changes after one is entered. -/
def Obligations.TerminalStatesNeverChange : Prop :=
  ∀ s : State, s.status = .halted ∨ s.status = .faulted →
    (∀ t, step s ≠ .next t) ∧ ∀ n, runFor n s = s

/-- R54: an illegal byte at `IP` raises `InvalidInstruction` with the byte and its position, and has no effect on TAPE,
DP, IC or OUT. -/
def Obligations.IllegalByteFaultsWithoutEffect : Prop :=
  ∀ (s : State) (b : Byte),
    s.status = .running → progRead s.prog s.ip = some b → (∀ i, decode b ≠ .valid i) →
    ∃ t, step s = .next t ∧ t.status = .faulted ∧ t.fault = .invalidInstruction b s.ip ∧
      t.tape = s.tape ∧ t.dp = s.dp ∧ t.ic = s.ic ∧ t.out = s.out

/-- R56: after a dispatch that does not fault, `IP` is one past where the dispatch left it: one past itself, or one
past the matched bracket of a taken jump; and it does not pass `PROG_LEN`. -/
def Obligations.PointerAdvancesByOneAfterDispatch : Prop :=
  ∀ (i : Instr) (s t : State),
    s.status = .running → exec i s = .next t → t.status ≠ .faulted →
    (¬ (i = .openBracket ∧ s.cell s.dp = 0) → ¬ (i = .closeBracket ∧ s.cell s.dp ≠ 0) → t.ip = s.ip + 1) ∧
    (i = .openBracket → s.cell s.dp = 0 → ∃ q, FirstZeroForward s.prog s.ip q ∧ t.ip = q + 1) ∧
    (i = .closeBracket → s.cell s.dp ≠ 0 → ∃ q, FirstZeroBackward s.prog s.ip q ∧ t.ip = q + 1) ∧
    (s.ip < s.progLen → t.ip ≤ s.progLen)

/-! ## The instructions: what each one leaves -/

/-- R62, and everything else unchanged: `+` adds 1 modulo 256 to the current cell. -/
def Obligations.AddIncrementsTheCurrentCell : Prop :=
  ∀ s : State, s.dp < s.tapeLen → Memory.wf s.tape = true →
    ∃ t, exec .add s = .next t ∧
      (t.cell s.dp).toNat = ((s.cell s.dp).toNat + 1) % 256 ∧ s.SameTapeBut t s.dp ∧
      t.ip = s.ip + 1 ∧ t.dp = s.dp ∧ t.ic = s.ic ∧ t.out = s.out ∧ s.SameRun t

/-- R63, and everything else unchanged: `-` adds 255 modulo 256 to the current cell, which subtracts 1. -/
def Obligations.SubtractDecrementsTheCurrentCell : Prop :=
  ∀ s : State, s.dp < s.tapeLen → Memory.wf s.tape = true →
    ∃ t, exec .subtract s = .next t ∧
      (t.cell s.dp).toNat = ((s.cell s.dp).toNat + 255) % 256 ∧
      ((t.cell s.dp).toNat : Int) = (((s.cell s.dp).toNat : Int) - 1) % 256 ∧ s.SameTapeBut t s.dp ∧
      t.ip = s.ip + 1 ∧ t.dp = s.dp ∧ t.ic = s.ic ∧ t.out = s.out ∧ s.SameRun t

/-- R64, and everything else unchanged: the move right, from the last cell to the first.
Which symbol it is (D2) is no part of this statement. -/
def Obligations.MoveRightIsCircular : Prop :=
  ∀ s : State, 1 ≤ s.tapeLen →
    ∃ t, exec .moveRight s = .next t ∧
      t.dp = (s.dp + 1) % s.tapeLen ∧
      (s.dp + 1 < s.tapeLen → t.dp = s.dp + 1) ∧ (s.dp + 1 = s.tapeLen → t.dp = 0) ∧
      s.SameTape t ∧ t.ip = s.ip + 1 ∧ t.ic = s.ic ∧ t.out = s.out ∧ s.SameRun t

/-- R65, and everything else unchanged: the move left, from the first cell to the last.
Which symbol it is (D2) is no part of this statement. -/
def Obligations.MoveLeftIsCircular : Prop :=
  ∀ s : State, 1 ≤ s.tapeLen →
    ∃ t, exec .moveLeft s = .next t ∧
      (t.dp : Int) = ((s.dp : Int) - 1 + s.tapeLen) % s.tapeLen ∧
      (s.dp = 0 → t.dp = s.tapeLen - 1) ∧ (0 < s.dp → s.dp < s.tapeLen → t.dp = s.dp - 1) ∧
      s.SameTape t ∧ t.ip = s.ip + 1 ∧ t.ic = s.ic ∧ t.out = s.out ∧ s.SameRun t

/-- R66, and everything else unchanged: `.` appends the current cell to OUT, which has no capacity limit (the limit's
absence is the spec's own decision D12). -/
def Obligations.OutputAppendsTheCurrentCell : Prop :=
  ∀ s : State, s.dp < s.tapeLen →
    ∃ t, exec .output s = .next t ∧
      t.out = s.out ++ [s.cell s.dp] ∧
      s.SameTape t ∧ t.ip = s.ip + 1 ∧ t.dp = s.dp ∧ t.ic = s.ic ∧ s.SameRun t

/-- `,` under `Wrap` (R67, R68): the byte at the cursor is stored and the cursor moves circularly.
That an empty INPUT raises `InputExhausted` is the spec's own decision D7, its position D8, and that nothing else
changes D9. -/
def Obligations.InputUnderWrap : Prop :=
  ∀ s : State, s.policy = .wrap →
    (s.inputLen = 0 →
      exec .input s = .next { s with status := .faulted, fault := .inputExhausted s.ip }) ∧
    (s.ic < s.inputLen → s.dp < s.tapeLen → Memory.wf s.tape = true →
      ∃ t, exec .input s = .next t ∧ s.StoredInput t ((s.ic + 1) % s.inputLen) ∧
        (s.ic + 1 < s.inputLen → t.ic = s.ic + 1) ∧ (s.ic + 1 = s.inputLen → t.ic = 0))

/-- `,` under `Fault` (R67, R69): the byte at the cursor is stored and the cursor moves by one; at the end of the input
it raises `InputExhausted`.
The fault's position is the spec's own decision D8, and that nothing else changes D9. -/
def Obligations.InputUnderFault : Prop :=
  ∀ s : State, s.policy = .fault →
    (s.inputLen ≤ s.ic →
      exec .input s = .next { s with status := .faulted, fault := .inputExhausted s.ip }) ∧
    (s.ic < s.inputLen → s.dp < s.tapeLen → Memory.wf s.tape = true →
      ∃ t, exec .input s = .next t ∧ s.StoredInput t (s.ic + 1))

/-- `,` under `Zero` (R67, R70): at the end of the input the cell becomes 0.
That `IC` then stays is the spec's own decision D21. -/
def Obligations.InputUnderZero : Prop :=
  ∀ s : State, s.policy = .zero → s.dp < s.tapeLen → Memory.wf s.tape = true →
    (s.inputLen ≤ s.ic →
      ∃ t, exec .input s = .next t ∧ t.cell s.dp = 0 ∧ s.SameTapeBut t s.dp ∧
        t.ic = s.ic ∧ t.ip = s.ip + 1 ∧ t.dp = s.dp ∧ t.out = s.out ∧ s.SameRun t) ∧
    (s.ic < s.inputLen → ∃ t, exec .input s = .next t ∧ s.StoredInput t (s.ic + 1))

/-- `,` under `Unchanged` (R67, R71): at the end of the input nothing changes but `IP`.
That `IC` then stays is the spec's own decision D21. -/
def Obligations.InputUnderUnchanged : Prop :=
  ∀ s : State, s.policy = .unchanged →
    (s.inputLen ≤ s.ic → exec .input s = .next { s with ip := s.ip + 1 }) ∧
    (s.ic < s.inputLen → s.dp < s.tapeLen → Memory.wf s.tape = true →
      ∃ t, exec .input s = .next t ∧ s.StoredInput t (s.ic + 1))

/-- `[` in its three cases (R72, R74, R75): not taken, taken with a match, taken without one; nothing but `IP`, or
`STATUS` and `FAULT`, changes.
That an untaken bracket is not checked is the spec's own decision D16, the fault's position D8, and that nothing else
changes on the fault D9. -/
def Obligations.OpenBracketFollowsTheCell : Prop :=
  ∀ s : State, s.dp < s.tapeLen →
    (s.cell s.dp ≠ 0 → exec .openBracket s = .next { s with ip := s.ip + 1 }) ∧
    (∀ q, s.cell s.dp = 0 → FirstZeroForward s.prog s.ip q →
      exec .openBracket s = .next { s with ip := q + 1 }) ∧
    (s.cell s.dp = 0 → (∀ q, ¬ FirstZeroForward s.prog s.ip q) →
      exec .openBracket s = .next { s with status := .faulted, fault := .bracketMismatch s.ip })

/-- `]` in its three cases (R73, R74, R76): not taken, taken with a match, taken without one; nothing but `IP`, or
`STATUS` and `FAULT`, changes.
That an untaken bracket is not checked is the spec's own decision D16, the fault's position D8, and that nothing else
changes on the fault D9. -/
def Obligations.CloseBracketFollowsTheCell : Prop :=
  ∀ s : State, s.dp < s.tapeLen → s.ip ≤ s.progLen →
    (s.cell s.dp = 0 → exec .closeBracket s = .next { s with ip := s.ip + 1 }) ∧
    (∀ q, s.cell s.dp ≠ 0 → FirstZeroBackward s.prog s.ip q →
      exec .closeBracket s = .next { s with ip := q + 1 }) ∧
    (s.cell s.dp ≠ 0 → (∀ q, ¬ FirstZeroBackward s.prog s.ip q) →
      exec .closeBracket s = .next { s with status := .faulted, fault := .bracketMismatch s.ip })

/-! ## The Jump Resolver -/

/-- R75: the forward scan finds the first index inside the program where the balance, 1 at the start, is 0, and the
byte there is `]`; it finds nothing exactly when there is no such index. -/
def Obligations.ForwardScanStopsAtFirstZeroBalance : Prop :=
  ∀ (prog : List Byte) (p q : Nat),
    (scanForward prog p = some q ↔ FirstZeroForward prog p q) ∧
    (scanForward prog p = some q → progRead prog q = some closeBracketByte)

/-- R76: the mirror of R75, down to index 0; the byte found is `[`. -/
def Obligations.BackwardScanStopsAtFirstZeroBalance : Prop :=
  ∀ (prog : List Byte) (p q : Nat), p ≤ prog.length →
    (scanBackward prog p = some q ↔ FirstZeroBackward prog p q) ∧
    (scanBackward prog p = some q → progRead prog q = some openBracketByte)

/-- R81: two brackets with balanced code between them resolve to each other, in any program.
That matching brackets are those with balanced code between them, and balanced means nesting depth, is the model's
reading of the Glossary (DEDUCED, notes/assumptions/13.md). -/
def Obligations.MatchingBracketsResolveToEachOther : Prop :=
  ∀ (prog : List Byte) (p q : Nat), matchingPair prog p q = true →
    scanForward prog p = some q ∧ scanBackward prog q = some p

/-- Glossary "Balanced brackets", R81: in a balanced program every bracket has a matching partner, so no scan from a
bracket of it runs off the program.
That balanced and matching are read as nesting depth is the model's reading of the Glossary's words "correct nesting"
(DEDUCED, notes/assumptions/13.md). -/
def Obligations.BalancedProgramPairsEveryBracket : Prop :=
  ∀ prog : List Byte, balanced prog = true →
    (∀ p, progRead prog p = some openBracketByte →
      ∃ q, matchingPair prog p q = true ∧ ∀ q', matchingPair prog p q' = true → q' = q) ∧
    (∀ q, progRead prog q = some closeBracketByte →
      ∃ p, matchingPair prog p q = true ∧ ∀ p', matchingPair prog p' q = true → p' = p)

/-- R80: the match table computed once by a stack resolves every bracket of every program as the scans do, mismatches
included. -/
def Obligations.MatchTableResolvesAsTheScans : Prop :=
  ∀ (prog : List Byte) (c v : Byte) (p : Nat), progRead prog p = some c →
    resolveByTable (matchTable prog) c v p = resolve c v p prog

/-- R78: the resolver's answer depends only on where the two bracket bytes stand; every other byte, legal or not, is
passed over.
That passed bytes are not decoded is the spec's own decision D17. -/
def Obligations.ScansIgnoreOtherBytes : Prop :=
  ∀ prog prog' : List Byte, prog.length = prog'.length →
    (∀ i, (progRead prog i = some openBracketByte ↔ progRead prog' i = some openBracketByte) ∧
          (progRead prog i = some closeBracketByte ↔ progRead prog' i = some closeBracketByte)) →
    ∀ (c v : Byte) (p : Nat), resolve c v p prog = resolve c v p prog'

/-! ## Faults -/

/-- R88: a step that faults writes `STATUS` and `FAULT` and nothing else.
That faults are precise is the spec's own decision D9. -/
def Obligations.FaultingStepWritesOnlyStatusAndRecord : Prop :=
  ∀ s t : State, step s = .next t → t.status = .faulted →
    t.fault ≠ .none ∧ t = { s with status := .faulted, fault := t.fault }

/-- R82, R87: of the dispatched instructions only `,` raises `InputExhausted`, only under `Wrap` with an empty INPUT
or under `Fault` at the end, and only a taken bracket raises `BracketMismatch`; no other instruction faults.
The recorded position is the spec's own decision D8. -/
def Obligations.OnlyInputAndBracketsRaise : Prop :=
  ∀ (i : Instr) (s t : State), s.status ≠ .faulted → exec i s = .next t → t.status = .faulted →
    (i = .input ∧ t.fault = .inputExhausted s.ip ∧
      ((s.policy = .wrap ∧ s.inputLen = 0) ∨ (s.policy = .fault ∧ s.inputLen ≤ s.ic))) ∨
    (i = .openBracket ∧ t.fault = .bracketMismatch s.ip ∧ s.cell s.dp = 0 ∧
      scanForward s.prog s.ip = none) ∨
    (i = .closeBracket ∧ t.fault = .bracketMismatch s.ip ∧ s.cell s.dp ≠ 0 ∧
      scanBackward s.prog s.ip = none)

/-- R19, R20, R82: the codes of `STATUS` and of the fault registers after every step.
`STATUS` holds 0b00 for Running, 0b01 for Halted, 0b10 for Faulted, and never 0b11.
After a fault the cause is 1, with the offending byte, exactly when the byte at `IP` is outside the alphabet, 2 exactly
when it is a bracket and 3 exactly when it is `,`; the byte register is 0 for causes 2 and 3; the position is that of
the faulting instruction, where `IP` still is.
Without a fault, before and after, the three fault registers hold 0.
The codes are the spec's own decision D10, the position D8, and that `IP` stays D9. -/
def Obligations.FaultRegistersRecordTheFault : Prop :=
  ∀ s t : State, step s = .next t →
    ((t.status.code = 0b00 ↔ t.status = .running) ∧ (t.status.code = 0b01 ↔ t.status = .halted) ∧
      (t.status.code = 0b10 ↔ t.status = .faulted) ∧ t.status.code ≠ 0b11) ∧
    (t.status = .faulted →
      t.fault.pos = s.ip ∧ t.ip = s.ip ∧
      ∃ b, progRead s.prog s.ip = some b ∧
        (t.fault.cause = 1 ↔ ∀ i, decode b ≠ .valid i) ∧
        (t.fault.cause = 2 ↔ b = openBracketByte ∨ b = closeBracketByte) ∧
        (t.fault.cause = 3 ↔ b = encode .input) ∧
        t.fault.cause ≠ 0 ∧
        (t.fault.cause = 1 → t.fault.byte = b) ∧ (t.fault.cause ≠ 1 → t.fault.byte = 0)) ∧
    (s.fault = .none → t.status ≠ .faulted →
      t.fault.cause = 0 ∧ t.fault.byte = 0 ∧ t.fault.pos = 0)

/-- R27, R82: no meaning refuses, and a meaning has no next state only where `DP` or, under `Wrap`, `IC` lies outside
its range.
The names of the model's stops are the model's own (notes/assumptions/5.md). -/
def Obligations.MeaningsStopOnlyOutsideTheRanges : Prop :=
  ∀ (i : Instr) (s : State),
    (∀ r, exec i s ≠ .refused r) ∧
    (∀ f, exec i s = .fault f →
      (f = .cellOutsideTape s.dp ∧ s.tapeLen ≤ s.dp) ∨
      (f = .byteOutsideInput s.ic ∧ i = .input ∧ s.policy = .wrap ∧ s.inputLen ≠ 0 ∧ s.inputLen ≤ s.ic))

/-! ## Whole-machine rules -/

/-- R94: the reset state of every launch, and of the launch `State.reset` stands on.
That a cell holds 0 is the spec's own decision D5, the fault registers' zeros D10; that `State.reset` has nothing
loaded is the model's choice (notes/assumptions/3.md). -/
def Obligations.ResetHoldsTheGivenValues : Prop :=
  (∀ l : Launch,
    (State.start l).launch = l ∧ (State.start l).status = .running ∧ (State.start l).ip = 0 ∧
    (State.start l).dp = 0 ∧ (State.start l).ic = 0 ∧ (State.start l).out = [] ∧
    (∀ a, (State.start l).cell a = 0) ∧ (State.start l).fault = .none ∧
    (State.start l).fault.cause = 0 ∧ (State.start l).fault.byte = 0 ∧ (State.start l).fault.pos = 0) ∧
  State.reset = State.start Config.launch ∧
  State.reset.prog = [] ∧ State.reset.input = [] ∧ State.reset.policy = .wrap

/-- R4, R22, R94: every launch that meets the one requirement on it starts in a state that meets the invariants, and so
does `State.reset`. -/
def Obligations.ResetMeetsTheInvariants : Prop :=
  (∀ l : Launch, l.wellFormed = true → (State.start l).Inv ∧ (State.start l).EndExplained) ∧
  State.reset.Inv ∧ State.reset.EndExplained

/-- R22: every step keeps the invariants, from every state that meets them.
The range of `IC` is the spec's own decision D21; the canonical form of the tape is the model's (notes/assumptions/6.md). -/
def Obligations.StepKeepsTheInvariants : Prop :=
  ∀ s t : State, s.Inv → step s = .next t → t.Inv

/-- R52, R82, R84 to R86: a run that has ended shows why: Halted only at the end of the program, Faulted only with a
record whose condition holds at the position it names.
Positions are the spec's own decision D8. -/
def Obligations.StepKeepsTheEndExplained : Prop :=
  ∀ s t : State, s.Inv → s.EndExplained → step s = .next t → t.EndExplained

/-- R58: from every state that meets the invariants, state Running has a successor, whatever the program, the input,
the tape length and the policy. -/
def Obligations.RunningStateHasASuccessor : Prop :=
  ∀ s : State, s.Inv → s.status = .running → ∃ t, step s = .next t

/-- R6, R11, R12, R36: no step writes the program, the input, the tape length or the policy. -/
def Obligations.StepWritesNoLaunchData : Prop :=
  ∀ s t : State, step s = .next t → t.launch = s.launch

/-- R18: OUT is append-only, only `.` writes it, and it appends exactly the current cell. -/
def Obligations.OutGrowsOnlyByOutput : Prop :=
  ∀ s t : State, step s = .next t →
    t.out = s.out ∨ (fetch s = .instr .output ∧ t.out = s.out ++ [s.cell s.dp])

/-- R23: the write table over all instructions, as one frame: what an instruction's row does not mark w is unchanged;
`STATUS` and `FAULT` change only by `,` and the brackets, which can fault. -/
def Obligations.InstructionsWriteOnlyTheirRow : Prop :=
  ∀ (i : Instr) (s t : State), exec i s = .next t →
    t.launch = s.launch ∧ s.SameTapeBut t s.dp ∧
    (i ≠ .add → i ≠ .subtract → i ≠ .input → s.SameTape t) ∧
    (i ≠ .moveRight → i ≠ .moveLeft → t.dp = s.dp) ∧
    (i ≠ .input → t.ic = s.ic) ∧
    (i ≠ .output → t.out = s.out) ∧
    (i ≠ .input → i ≠ .openBracket → i ≠ .closeBracket → t.status = s.status ∧ t.fault = s.fault)

/-- R18, R25: no instruction reads OUT: with any other output sequence the same step does the same and appends the
same. -/
def Obligations.NoInstructionReadsOut : Prop :=
  ∀ (s t : State) (o : List Byte), step s = .next t →
    ∃ added, t.out = s.out ++ added ∧ step { s with out := o } = .next { t with out := o ++ added }

/-- R24: the program cannot observe `STATUS` or `FAULT`: with any other values in them every instruction does the same
to everything else.
Where STATUS is not Running, or a record stands, no step dispatches an instruction, and what `exec` answers there is the
model's choice (DESIGN CHOICE, unsafe there: notes/assumptions/7.md). -/
def Obligations.StatusAndFaultAreInvisible : Prop :=
  ∀ (i : Instr) (s : State) (st : Status) (f : FaultRecord),
    withoutStatus (exec i { s with status := st, fault := f }) = withoutStatus (exec i s)

/-! ## Runs -/

/-- R59, R61: once `execute` has a result, waiting longer gives the same result.
That a run is cut off by a number of steps is the model's form of the host's "abandon" (R9, D20). -/
def Obligations.ExecuteResultIsFinal : Prop :=
  ∀ (l : Launch) (m n : Nat) (r : RunResult), m ≤ n → execute m l = some r → execute n l = some r

/-- R60: `Ok` is the whole OUT of a run that reached the end of its program without a fault, and `Err` is the record of
a fault at an index of the program; a run still in Running has no result.
That nothing of OUT comes with an error is the spec's own decision D13. -/
def Obligations.ExecuteResultIsOutputOrError : Prop :=
  ∀ (l : Launch) (n : Nat), l.wellFormed = true →
    (∀ o, execute n l = some (.ok o) →
      (runFor n (State.start l)).status = .halted ∧ (runFor n (State.start l)).out = o ∧
      (runFor n (State.start l)).ip = l.prog.length ∧ (runFor n (State.start l)).fault = .none) ∧
    (∀ f, execute n l = some (.err f) →
      (runFor n (State.start l)).status = .faulted ∧ (runFor n (State.start l)).fault = f ∧ f ≠ .none ∧
      f.pos < l.prog.length) ∧
    (execute n l = none → (runFor n (State.start l)).status = .running)

/-- R42, V-MIRROR: one step of a machine with the moves exchanged on the mirrored tape follows the step of the original.
That `>` moves right is the spec's own decision D2, which this shows cannot be observed. -/
def Obligations.MirroredStateStepsAlike : Prop :=
  ∀ s m t : State, s.Inv → Memory.wf m.tape = true → s.Mirrored m → step s = .next t →
    ∃ u, step m = .next u ∧ t.Mirrored u

/-- R42, V-MIRROR: exchanging `<` and `>` in a program changes no result of `execute`, whatever the program, the input,
the tape length and the policy. -/
def Obligations.MoveDirectionIsUnobservable : Prop :=
  ∀ (l : Launch) (n : Nat), l.wellFormed = true → execute n l.mirror = execute n l
end

