-- ==== Sys2Proof/Laws/Decode.lean ====
section
/-! SUPPORT. The decoder's and the encoder's small lemmas: the decoder read backwards, and text to bytes. -/

namespace Sys2Proof

/-- A byte that decodes to an instruction is that instruction's byte. -/
theorem encode_of_decode {b : Byte} {i : Instr} (h : decode b = .valid i) : encode i = b := by
  unfold decode at h
  repeat' split at h
  all_goals first
    | (cases h; simp_all [encode])
    | cases h

/-- The rejected byte is the one the decoder was given (R46). -/
theorem decode_invalid_byte {b c : Byte} (h : decode b = .invalidInstruction c) : c = b := by
  unfold decode at h
  repeat' split at h
  all_goals first
    | (cases h; rfl)
    | cases h

theorem decodeTableWord_some {nbits w : Nat} {i : Instr} (h : decodeTableWord nbits w = some i) :
    decode (BitVec.ofNat 8 (w % 2 ^ nbits)) = .valid i := by
  unfold decodeTableWord at h
  split at h
  next j hj => rw [hj]; exact congrArg _ (Option.some.inj h)
  next => cases h

@[simp] theorem textBytes_nil : textBytes [] = some [] := rfl

@[simp] theorem assemble_nil : assemble [] = [] := rfl

@[simp] theorem assemble_cons (i : Instr) (is : List Instr) : assemble (i :: is) = encode i :: assemble is := rfl

end Sys2Proof
end

