-- ==== Sys2Proof/Laws/State.lean ====
section
/-! SUPPORT. One lemma for each field of State under each update, true by rfl, so that no later proof unfolds a record
update; and what a cell reads under the updates that do not store. -/

namespace Sys2Proof.Machine

/-! ### setIp -/

@[simp] theorem State.setIp_launch (s : State) (n : Nat) : (s.setIp n).launch = s.launch := rfl
@[simp] theorem State.setIp_tape (s : State) (n : Nat) : (s.setIp n).tape = s.tape := rfl
@[simp] theorem State.setIp_dp (s : State) (n : Nat) : (s.setIp n).dp = s.dp := rfl
@[simp] theorem State.setIp_ip (s : State) (n : Nat) : (s.setIp n).ip = n := rfl
@[simp] theorem State.setIp_ic (s : State) (n : Nat) : (s.setIp n).ic = s.ic := rfl
@[simp] theorem State.setIp_out (s : State) (n : Nat) : (s.setIp n).out = s.out := rfl
@[simp] theorem State.setIp_status (s : State) (n : Nat) : (s.setIp n).status = s.status := rfl
@[simp] theorem State.setIp_fault (s : State) (n : Nat) : (s.setIp n).fault = s.fault := rfl
@[simp] theorem State.setIp_cell (s : State) (n : Nat) (k : Nat) : (s.setIp n).cell k = s.cell k := rfl

/-! ### advance -/

@[simp] theorem State.advance_launch (s : State) : (s.advance).launch = s.launch := rfl
@[simp] theorem State.advance_tape (s : State) : (s.advance).tape = s.tape := rfl
@[simp] theorem State.advance_dp (s : State) : (s.advance).dp = s.dp := rfl
@[simp] theorem State.advance_ip (s : State) : (s.advance).ip = s.ip + 1 := rfl
@[simp] theorem State.advance_ic (s : State) : (s.advance).ic = s.ic := rfl
@[simp] theorem State.advance_out (s : State) : (s.advance).out = s.out := rfl
@[simp] theorem State.advance_status (s : State) : (s.advance).status = s.status := rfl
@[simp] theorem State.advance_fault (s : State) : (s.advance).fault = s.fault := rfl
@[simp] theorem State.advance_cell (s : State) (k : Nat) : (s.advance).cell k = s.cell k := rfl

/-! ### setDp -/

@[simp] theorem State.setDp_launch (s : State) (n : Nat) : (s.setDp n).launch = s.launch := rfl
@[simp] theorem State.setDp_tape (s : State) (n : Nat) : (s.setDp n).tape = s.tape := rfl
@[simp] theorem State.setDp_dp (s : State) (n : Nat) : (s.setDp n).dp = n := rfl
@[simp] theorem State.setDp_ip (s : State) (n : Nat) : (s.setDp n).ip = s.ip := rfl
@[simp] theorem State.setDp_ic (s : State) (n : Nat) : (s.setDp n).ic = s.ic := rfl
@[simp] theorem State.setDp_out (s : State) (n : Nat) : (s.setDp n).out = s.out := rfl
@[simp] theorem State.setDp_status (s : State) (n : Nat) : (s.setDp n).status = s.status := rfl
@[simp] theorem State.setDp_fault (s : State) (n : Nat) : (s.setDp n).fault = s.fault := rfl
@[simp] theorem State.setDp_cell (s : State) (n : Nat) (k : Nat) : (s.setDp n).cell k = s.cell k := rfl

/-! ### setIc -/

@[simp] theorem State.setIc_launch (s : State) (n : Nat) : (s.setIc n).launch = s.launch := rfl
@[simp] theorem State.setIc_tape (s : State) (n : Nat) : (s.setIc n).tape = s.tape := rfl
@[simp] theorem State.setIc_dp (s : State) (n : Nat) : (s.setIc n).dp = s.dp := rfl
@[simp] theorem State.setIc_ip (s : State) (n : Nat) : (s.setIc n).ip = s.ip := rfl
@[simp] theorem State.setIc_ic (s : State) (n : Nat) : (s.setIc n).ic = n := rfl
@[simp] theorem State.setIc_out (s : State) (n : Nat) : (s.setIc n).out = s.out := rfl
@[simp] theorem State.setIc_status (s : State) (n : Nat) : (s.setIc n).status = s.status := rfl
@[simp] theorem State.setIc_fault (s : State) (n : Nat) : (s.setIc n).fault = s.fault := rfl
@[simp] theorem State.setIc_cell (s : State) (n : Nat) (k : Nat) : (s.setIc n).cell k = s.cell k := rfl

/-! ### setCell -/

@[simp] theorem State.setCell_launch (s : State) (v : Byte) : (s.setCell v).launch = s.launch := rfl
@[simp] theorem State.setCell_tape (s : State) (v : Byte) : (s.setCell v).tape = Memory.write s.tape s.dp v := rfl
@[simp] theorem State.setCell_dp (s : State) (v : Byte) : (s.setCell v).dp = s.dp := rfl
@[simp] theorem State.setCell_ip (s : State) (v : Byte) : (s.setCell v).ip = s.ip := rfl
@[simp] theorem State.setCell_ic (s : State) (v : Byte) : (s.setCell v).ic = s.ic := rfl
@[simp] theorem State.setCell_out (s : State) (v : Byte) : (s.setCell v).out = s.out := rfl
@[simp] theorem State.setCell_status (s : State) (v : Byte) : (s.setCell v).status = s.status := rfl
@[simp] theorem State.setCell_fault (s : State) (v : Byte) : (s.setCell v).fault = s.fault := rfl

/-! ### outAppend -/

@[simp] theorem State.outAppend_launch (s : State) (v : Byte) : (s.outAppend v).launch = s.launch := rfl
@[simp] theorem State.outAppend_tape (s : State) (v : Byte) : (s.outAppend v).tape = s.tape := rfl
@[simp] theorem State.outAppend_dp (s : State) (v : Byte) : (s.outAppend v).dp = s.dp := rfl
@[simp] theorem State.outAppend_ip (s : State) (v : Byte) : (s.outAppend v).ip = s.ip := rfl
@[simp] theorem State.outAppend_ic (s : State) (v : Byte) : (s.outAppend v).ic = s.ic := rfl
@[simp] theorem State.outAppend_out (s : State) (v : Byte) : (s.outAppend v).out = s.out ++ [v] := rfl
@[simp] theorem State.outAppend_status (s : State) (v : Byte) : (s.outAppend v).status = s.status := rfl
@[simp] theorem State.outAppend_fault (s : State) (v : Byte) : (s.outAppend v).fault = s.fault := rfl
@[simp] theorem State.outAppend_cell (s : State) (v : Byte) (k : Nat) : (s.outAppend v).cell k = s.cell k := rfl

/-! ### halt -/

@[simp] theorem State.halt_launch (s : State) : (s.halt).launch = s.launch := rfl
@[simp] theorem State.halt_tape (s : State) : (s.halt).tape = s.tape := rfl
@[simp] theorem State.halt_dp (s : State) : (s.halt).dp = s.dp := rfl
@[simp] theorem State.halt_ip (s : State) : (s.halt).ip = s.ip := rfl
@[simp] theorem State.halt_ic (s : State) : (s.halt).ic = s.ic := rfl
@[simp] theorem State.halt_out (s : State) : (s.halt).out = s.out := rfl
@[simp] theorem State.halt_status (s : State) : (s.halt).status = .halted := rfl
@[simp] theorem State.halt_fault (s : State) : (s.halt).fault = s.fault := rfl
@[simp] theorem State.halt_cell (s : State) (k : Nat) : (s.halt).cell k = s.cell k := rfl

/-! ### raise -/

@[simp] theorem State.raise_launch (s : State) (r : FaultRecord) : (s.raise r).launch = s.launch := rfl
@[simp] theorem State.raise_tape (s : State) (r : FaultRecord) : (s.raise r).tape = s.tape := rfl
@[simp] theorem State.raise_dp (s : State) (r : FaultRecord) : (s.raise r).dp = s.dp := rfl
@[simp] theorem State.raise_ip (s : State) (r : FaultRecord) : (s.raise r).ip = s.ip := rfl
@[simp] theorem State.raise_ic (s : State) (r : FaultRecord) : (s.raise r).ic = s.ic := rfl
@[simp] theorem State.raise_out (s : State) (r : FaultRecord) : (s.raise r).out = s.out := rfl
@[simp] theorem State.raise_status (s : State) (r : FaultRecord) : (s.raise r).status = .faulted := rfl
@[simp] theorem State.raise_fault (s : State) (r : FaultRecord) : (s.raise r).fault = r := rfl
@[simp] theorem State.raise_cell (s : State) (r : FaultRecord) (k : Nat) : (s.raise r).cell k = s.cell k := rfl

/-! ### placeAtIp -/

@[simp] theorem State.placeAtIp_launch (s : State) (b : Byte) : (s.placeAtIp b).launch = { s.launch with prog := progPlace s.prog s.ip b } := rfl
@[simp] theorem State.placeAtIp_tape (s : State) (b : Byte) : (s.placeAtIp b).tape = s.tape := rfl
@[simp] theorem State.placeAtIp_dp (s : State) (b : Byte) : (s.placeAtIp b).dp = s.dp := rfl
@[simp] theorem State.placeAtIp_ip (s : State) (b : Byte) : (s.placeAtIp b).ip = s.ip := rfl
@[simp] theorem State.placeAtIp_ic (s : State) (b : Byte) : (s.placeAtIp b).ic = s.ic := rfl
@[simp] theorem State.placeAtIp_out (s : State) (b : Byte) : (s.placeAtIp b).out = s.out := rfl
@[simp] theorem State.placeAtIp_status (s : State) (b : Byte) : (s.placeAtIp b).status = .running := rfl
@[simp] theorem State.placeAtIp_fault (s : State) (b : Byte) : (s.placeAtIp b).fault = .none := rfl
@[simp] theorem State.placeAtIp_cell (s : State) (b : Byte) (k : Nat) : (s.placeAtIp b).cell k = s.cell k := rfl

/-! ### start -/

@[simp] theorem State.start_launch (l : Launch) : (State.start l).launch = l := rfl
@[simp] theorem State.start_tape (l : Launch) : (State.start l).tape = [] := rfl
@[simp] theorem State.start_dp (l : Launch) : (State.start l).dp = 0 := rfl
@[simp] theorem State.start_ip (l : Launch) : (State.start l).ip = 0 := rfl
@[simp] theorem State.start_ic (l : Launch) : (State.start l).ic = 0 := rfl
@[simp] theorem State.start_out (l : Launch) : (State.start l).out = [] := rfl
@[simp] theorem State.start_status (l : Launch) : (State.start l).status = .running := rfl
@[simp] theorem State.start_fault (l : Launch) : (State.start l).fault = .none := rfl
@[simp] theorem State.start_cell (l : Launch) (k : Nat) : (State.start l).cell k = Config.initialCell := rfl

end Sys2Proof.Machine
end

