-- ==== Sys2Proof/Laws/Memory.lean ====
section
/-! SUPPORT. The laws of the tape's memory: what a write leaves readable, and that every memory operation keeps the
canonical form and the bound on its indices. -/

namespace Sys2Proof.Machine

@[simp] theorem Memory.read_nil (a : Nat) : Memory.read [] a = Config.initialCell := rfl

theorem Memory.read_cons (k : Nat) (v : Byte) (rest : Memory) (a : Nat) :
    Memory.read ((k, v) :: rest) a = if a = k then v else Memory.read rest a := rfl

theorem Memory.wfFrom_cons {lo k : Nat} {v : Byte} {rest : Memory} :
    Memory.wfFrom lo ((k, v) :: rest) = true ↔
      lo ≤ k ∧ v ≠ Config.initialCell ∧ Memory.wfFrom (k + 1) rest = true := by
  simp [Memory.wfFrom, and_assoc]

theorem Memory.wfFrom_mono {lo lo' : Nat} {m : Memory} (h : Memory.wfFrom lo m = true) (hle : lo' ≤ lo) :
    Memory.wfFrom lo' m = true := by
  cases m with
  | nil => rfl
  | cons c rest =>
    obtain ⟨h1, h2, h3⟩ := Memory.wfFrom_cons.mp h
    exact Memory.wfFrom_cons.mpr ⟨hle.trans h1, h2, h3⟩

/-- Below the first index of the canonical form every cell reads the initial value. -/
theorem Memory.read_of_lt {lo a : Nat} {m : Memory} (h : Memory.wfFrom lo m = true) (ha : a < lo) :
    Memory.read m a = Config.initialCell := by
  induction m generalizing lo with
  | nil => rfl
  | cons c rest ih =>
    obtain ⟨h1, _, h3⟩ := Memory.wfFrom_cons.mp h
    rw [Memory.read_cons, if_neg (by omega)]
    exact ih h3 (by omega)

/-- A read after a write to the same index gives the value written (R34). -/
theorem Memory.read_write_same {lo a : Nat} {v : Byte} {m : Memory} (h : Memory.wfFrom lo m = true) :
    Memory.read (Memory.write m a v) a = v := by
  induction m generalizing lo with
  | nil => by_cases hv : v = Config.initialCell <;> simp [Memory.write, Memory.read, hv]
  | cons c rest ih =>
    obtain ⟨k, w⟩ := c
    obtain ⟨_, _, h3⟩ := Memory.wfFrom_cons.mp h
    have below (ha : a ≤ k) : Memory.read rest a = Config.initialCell := Memory.read_of_lt h3 (by omega)
    by_cases hv : v = Config.initialCell
    · rcases lt_trichotomy a k with hlt | heq | hgt
      · simp [Memory.write, Memory.read, hlt, hv, hlt.ne, below hlt.le]
      · simp [Memory.write, heq, hv, heq ▸ below heq.le]
      · simp only [Memory.write, if_neg hgt.not_gt, if_neg hgt.ne', Memory.read_cons]
        exact ih h3
    · rcases lt_trichotomy a k with hlt | heq | hgt
      · simp [Memory.write, Memory.read, hlt, hv]
      · simp [Memory.write, Memory.read, heq, hv]
      · simp only [Memory.write, if_neg hgt.not_gt, if_neg hgt.ne', Memory.read_cons]
        exact ih h3

/-- A write leaves every other index alone; this needs no canonical form. -/
theorem Memory.read_write_other {a b : Nat} {v : Byte} {m : Memory} (hab : b ≠ a) :
    Memory.read (Memory.write m a v) b = Memory.read m b := by
  induction m with
  | nil => by_cases hv : v = Config.initialCell <;> simp [Memory.write, Memory.read, hv, hab]
  | cons c rest ih =>
    obtain ⟨k, w⟩ := c
    rcases lt_trichotomy a k with hlt | heq | hgt
    · by_cases hv : v = Config.initialCell <;> simp [Memory.write, Memory.read, hlt, hv, hab]
    · subst heq
      by_cases hv : v = Config.initialCell <;> simp [Memory.write, Memory.read, hv, hab]
    · simp only [Memory.write, if_neg hgt.not_gt, if_neg hgt.ne', Memory.read_cons, ih]

/-- A write keeps the canonical form. -/
theorem Memory.wfFrom_write {lo a : Nat} {v : Byte} {m : Memory} (h : Memory.wfFrom lo m = true) (ha : lo ≤ a) :
    Memory.wfFrom lo (Memory.write m a v) = true := by
  induction m generalizing lo with
  | nil => by_cases hv : v = Config.initialCell <;> simp [Memory.write, Memory.wfFrom, hv, ha]
  | cons c rest ih =>
    obtain ⟨k, w⟩ := c
    obtain ⟨h1, h2, h3⟩ := Memory.wfFrom_cons.mp h
    rcases lt_trichotomy a k with hlt | heq | hgt
    · by_cases hv : v = Config.initialCell
      · simpa [Memory.write, hlt, hv] using h
      · simp only [Memory.write, if_pos hlt, if_neg hv]
        exact Memory.wfFrom_cons.mpr ⟨ha, hv, Memory.wfFrom_cons.mpr ⟨hlt, h2, h3⟩⟩
    · subst heq
      by_cases hv : v = Config.initialCell
      · simpa [Memory.write, hv] using Memory.wfFrom_mono h3 (by omega)
      · simpa [Memory.write, hv] using Memory.wfFrom_cons.mpr ⟨ha, hv, h3⟩
    · simp only [Memory.write, if_neg hgt.not_gt, if_neg hgt.ne']
      exact Memory.wfFrom_cons.mpr ⟨h1, h2, ih h3 hgt⟩

theorem Memory.wf_write {a : Nat} {v : Byte} {m : Memory} (h : Memory.wf m = true) :
    Memory.wf (Memory.write m a v) = true :=
  Memory.wfFrom_write h (Nat.zero_le a)

theorem Memory.below_cons {n k : Nat} {w : Byte} {rest : Memory} :
    Memory.below n ((k, w) :: rest) = true ↔ k < n ∧ Memory.below n rest = true := by
  simp only [Memory.below, List.all_cons, Bool.and_eq_true, decide_eq_true_eq]

/-- A write below `n` keeps every listed index below `n`. -/
theorem Memory.below_write {n a : Nat} {v : Byte} {m : Memory} (h : Memory.below n m = true) (ha : a < n) :
    Memory.below n (Memory.write m a v) = true := by
  induction m with
  | nil => by_cases hv : v = Config.initialCell <;> simp [Memory.write, Memory.below, hv, ha]
  | cons c rest ih =>
    obtain ⟨k, w⟩ := c
    obtain ⟨hk, hr⟩ := Memory.below_cons.mp h
    simp only [Memory.write]
    split_ifs
    · exact h
    · exact Memory.below_cons.mpr ⟨ha, h⟩
    · exact hr
    · exact Memory.below_cons.mpr ⟨ha, hr⟩
    · exact Memory.below_cons.mpr ⟨hk, ih hr⟩

/-- The canonical form makes equal tapes equal lists. -/
theorem Memory.eq_of_reads {lo : Nat} {m m' : Memory} (h : Memory.wfFrom lo m = true)
    (h' : Memory.wfFrom lo m' = true) (heq : ∀ a, Memory.read m a = Memory.read m' a) : m = m' := by
  induction m generalizing lo m' with
  | nil =>
    cases m' with
    | nil => rfl
    | cons c rest =>
      obtain ⟨k, w⟩ := c
      have := heq k
      simp only [Memory.read_nil, Memory.read_cons, if_true] at this
      exact absurd this.symm (Memory.wfFrom_cons.mp h').2.1
  | cons c rest ih =>
    obtain ⟨k, w⟩ := c
    obtain ⟨h1, h2, h3⟩ := Memory.wfFrom_cons.mp h
    cases m' with
    | nil =>
      have := heq k
      simp only [Memory.read_nil, Memory.read_cons, if_true] at this
      exact absurd this h2
    | cons c' rest' =>
      obtain ⟨k', w'⟩ := c'
      obtain ⟨h1', h2', h3'⟩ := Memory.wfFrom_cons.mp h'
      have hk : k = k' := by
        rcases lt_trichotomy k k' with hlt | heq' | hgt
        · have := heq k
          rw [Memory.read_cons, Memory.read_cons, if_pos rfl, if_neg hlt.ne,
            Memory.read_of_lt h3' (by omega)] at this
          exact absurd this h2
        · exact heq'
        · have := heq k'
          rw [Memory.read_cons, Memory.read_cons, if_pos rfl, if_neg hgt.ne,
            Memory.read_of_lt h3 (by omega)] at this
          exact absurd this.symm h2'
      subst hk
      have hw : w = w' := by simpa [Memory.read_cons] using heq k
      subst hw
      refine congrArg _ (ih h3 h3' fun a => ?_)
      by_cases ha : a = k
      · rw [Memory.read_of_lt h3 (by omega), Memory.read_of_lt h3' (by omega)]
      · simpa [Memory.read_cons, ha] using heq a

/-! ### The current cell -/

theorem State.setCell_cell_same {s : State} {v : Byte} (h : Memory.wf s.tape = true) :
    (s.setCell v).cell s.dp = v :=
  Memory.read_write_same h

theorem State.setCell_cell_other {s : State} {v : Byte} {a : Nat} (h : a ≠ s.dp) :
    (s.setCell v).cell a = s.cell a :=
  Memory.read_write_other h

/-- Reset memory is in the canonical form. -/
theorem State.reset_tape_wf : Memory.wf State.reset.tape = true := rfl

end Sys2Proof.Machine
end

