-- ==== Sys2Proof/Laws/Resolver.lean ====
section
/-! SUPPORT. The equations of the scans and of the resolver, so that later proofs do not unfold them. -/

namespace Sys2Proof.Machine

@[simp] theorem openBracketByte_ne_close : openBracketByte ≠ closeBracketByte := by decide
@[simp] theorem closeBracketByte_ne_open : closeBracketByte ≠ openBracketByte := by decide

@[simp] theorem jumpTaken_open (v : Byte) : jumpTaken openBracketByte v = cellIsZero v := by
  simp [jumpTaken]

@[simp] theorem jumpTaken_close (v : Byte) : jumpTaken closeBracketByte v = !cellIsZero v := by
  simp [jumpTaken]

@[simp] theorem cellIsZero_iff (v : Byte) : cellIsZero v = true ↔ v = 0 := by simp [cellIsZero]

@[simp] theorem cellIsZero_false_iff (v : Byte) : cellIsZero v = false ↔ v ≠ 0 := by simp [cellIsZero]

@[simp] theorem balanceForward_open (bal : Nat) : balanceForward openBracketByte bal = bal + 1 := by
  simp [balanceForward]

@[simp] theorem balanceForward_close (bal : Nat) : balanceForward closeBracketByte bal = bal - 1 := by
  simp [balanceForward]

theorem balanceForward_other {b : Byte} (ho : b ≠ openBracketByte) (hc : b ≠ closeBracketByte) (bal : Nat) :
    balanceForward b bal = bal := by
  simp [balanceForward, ho, hc]

@[simp] theorem balanceBackward_open (bal : Nat) : balanceBackward openBracketByte bal = bal - 1 := by
  simp [balanceBackward]

@[simp] theorem balanceBackward_close (bal : Nat) : balanceBackward closeBracketByte bal = bal + 1 := by
  simp [balanceBackward]

theorem balanceBackward_other {b : Byte} (ho : b ≠ openBracketByte) (hc : b ≠ closeBracketByte) (bal : Nat) :
    balanceBackward b bal = bal := by
  simp [balanceBackward, ho, hc]

@[simp] theorem scanForwardFrom_nil (j bal : Nat) : scanForwardFrom [] j bal = none := rfl

theorem scanForwardFrom_cons (b : Byte) (rest : List Byte) (j bal : Nat) :
    scanForwardFrom (b :: rest) j bal =
      if balanceForward b bal = 0 then some j else scanForwardFrom rest (j + 1) (balanceForward b bal) := rfl

@[simp] theorem scanBackwardFrom_zero (prog : List Byte) (bal : Nat) : scanBackwardFrom prog 0 bal = none := rfl

theorem scanBackwardFrom_succ {prog : List Byte} {j bal : Nat} {b : Byte} (h : progRead prog j = some b) :
    scanBackwardFrom prog (j + 1) bal =
      if balanceBackward b bal = 0 then some j else scanBackwardFrom prog j (balanceBackward b bal) := by
  simp [scanBackwardFrom, h]

theorem resolve_not_taken {c v : Byte} (h : jumpTaken c v = false) (p : Nat) (prog : List Byte) :
    resolve c v p prog = some p := by
  simp [resolve, h]

theorem resolve_open_taken (p : Nat) (prog : List Byte) :
    resolve openBracketByte 0 p prog = scanForward prog p := by
  simp [resolve, cellIsZero]

theorem resolve_close_taken {v : Byte} (h : v ≠ 0) (p : Nat) (prog : List Byte) :
    resolve closeBracketByte v p prog = scanBackward prog p := by
  simp [resolve, (cellIsZero_false_iff v).mpr h]

end Sys2Proof.Machine
end

