-- ==== Sys2Proof/Laws/Exec.lean ====
section
/-! SUPPORT. Once for each shared operation, each meaning and the step: what it answers where its operands exist, and
everything it can have done if it answers a next state. -/

namespace Sys2Proof.Machine

/-! ### Operands -/

theorem readCell_of_lt {s : State} (h : s.dp < s.tapeLen) (k : Byte → Result) : readCell s k = k (s.cell s.dp) :=
  if_pos h

theorem writeCell_of_lt {s : State} (h : s.dp < s.tapeLen) (v : Byte) (k : State → Result) :
    writeCell s v k = k (s.setCell v) :=
  if_pos h

theorem takeInput_of_lt {s : State} (h : s.ic < s.inputLen) (k : Byte → Result) :
    takeInput s k = k (s.input[s.ic]'h) := by
  simp [takeInput, inRead, h]

theorem readCell_next {s t : State} {k : Byte → Result} (h : readCell s k = .next t) :
    s.dp < s.tapeLen ∧ k (s.cell s.dp) = .next t := by
  unfold readCell at h
  split at h
  next hd => exact ⟨hd, h⟩
  next => cases h

theorem writeCell_next {s t : State} {v : Byte} {k : State → Result} (h : writeCell s v k = .next t) :
    s.dp < s.tapeLen ∧ k (s.setCell v) = .next t := by
  unfold writeCell at h
  split at h
  next hd => exact ⟨hd, h⟩
  next => cases h

theorem takeInput_next {s t : State} {k : Byte → Result} (h : takeInput s k = .next t) :
    ∃ b, s.input[s.ic]? = some b ∧ k b = .next t := by
  unfold takeInput inRead at h
  split at h
  next b hb => exact ⟨b, hb, h⟩
  next => cases h

/-! ### Shared operations of the families -/

theorem addToCell_next {d : Byte} {s t : State} (h : addToCell d s = .next t) :
    s.dp < s.tapeLen ∧ t = (s.setCell (s.cell s.dp + d)).advance := by
  obtain ⟨hd, h⟩ := readCell_next h
  obtain ⟨-, h⟩ := writeCell_next h
  cases h
  exact ⟨hd, rfl⟩

theorem addToCell_of_lt {d : Byte} {s : State} (h : s.dp < s.tapeLen) :
    addToCell d s = .next (s.setCell (s.cell s.dp + d)).advance := by
  simp only [addToCell, readCell_of_lt h, writeCell_of_lt h]

theorem movePointer_next {n : Nat} {s t : State} (h : movePointer n s = .next t) : t = (s.setDp n).advance := by
  cases h
  rfl

theorem execOutput_next {s t : State} (h : execOutput s = .next t) :
    s.dp < s.tapeLen ∧ t = (s.outAppend (s.cell s.dp)).advance := by
  obtain ⟨hd, h⟩ := readCell_next h
  cases h
  exact ⟨hd, rfl⟩

theorem storeInput_next {n : Nat} {s t : State} (h : storeInput n s = .next t) :
    ∃ b, s.input[s.ic]? = some b ∧ s.dp < s.tapeLen ∧ t = ((s.setCell b).setIc n).advance := by
  obtain ⟨b, hb, h⟩ := takeInput_next h
  obtain ⟨hd, h⟩ := writeCell_next h
  cases h
  exact ⟨b, hb, hd, rfl⟩

theorem storeInput_of_lt {n : Nat} {s : State} (hi : s.ic < s.inputLen) (hd : s.dp < s.tapeLen) :
    storeInput n s = .next ((s.setCell (s.input[s.ic]'hi)).setIc n).advance := by
  simp only [storeInput, takeInput_of_lt hi, writeCell_of_lt hd]

/-- Everything `,` can have done if it answers a next state: it raised, it stored a byte, it stored 0, or it only
advanced; each with the policy and the cursor under which it does so. -/
theorem execInput_next {s t : State} (h : execInput s = .next t) :
    (((s.policy = .wrap ∧ s.inputLen = 0) ∨ (s.policy = .fault ∧ s.inputLen ≤ s.ic)) ∧
      t = s.raise (.inputExhausted s.ip)) ∨
    (∃ b n, s.input[s.ic]? = some b ∧ s.dp < s.tapeLen ∧
      ((s.policy = .wrap ∧ n = (s.ic + 1) % s.inputLen) ∨ (s.policy ≠ .wrap ∧ n = s.ic + 1)) ∧
      t = ((s.setCell b).setIc n).advance) ∨
    (s.policy = .zero ∧ s.inputLen ≤ s.ic ∧ s.dp < s.tapeLen ∧ t = (s.setCell 0).advance) ∨
    (s.policy = .unchanged ∧ s.inputLen ≤ s.ic ∧ t = s.advance) := by
  unfold execInput at h
  split at h
  next hp =>
    unfold inputWrap raiseInputExhausted at h
    split at h
    next hl => cases h; exact .inl ⟨.inl ⟨hp, hl⟩, rfl⟩
    next =>
      obtain ⟨b, hb, hd, rfl⟩ := storeInput_next h
      exact .inr (.inl ⟨b, _, hb, hd, .inl ⟨hp, rfl⟩, rfl⟩)
  next hp =>
    unfold inputFault raiseInputExhausted at h
    split at h
    next hl => cases h; exact .inl ⟨.inr ⟨hp, hl⟩, rfl⟩
    next =>
      obtain ⟨b, hb, hd, rfl⟩ := storeInput_next h
      exact .inr (.inl ⟨b, _, hb, hd, .inr ⟨by simp [hp], rfl⟩, rfl⟩)
  next hp =>
    unfold inputZero at h
    split at h
    next hl =>
      obtain ⟨hd, h⟩ := writeCell_next h
      cases h
      exact .inr (.inr (.inl ⟨hp, hl, hd, rfl⟩))
    next =>
      obtain ⟨b, hb, hd, rfl⟩ := storeInput_next h
      exact .inr (.inl ⟨b, _, hb, hd, .inr ⟨by simp [hp], rfl⟩, rfl⟩)
  next hp =>
    unfold inputUnchanged at h
    split at h
    next hl => cases h; exact .inr (.inr (.inr ⟨hp, hl, rfl⟩))
    next =>
      obtain ⟨b, hb, hd, rfl⟩ := storeInput_next h
      exact .inr (.inl ⟨b, _, hb, hd, .inr ⟨by simp [hp], rfl⟩, rfl⟩)

/-- Everything a bracket can have done if it answers a next state. -/
theorem jumpBy_next {c : Byte} {s t : State} (h : jumpBy c s = .next t) :
    s.dp < s.tapeLen ∧
    ((∃ q, resolve c (s.cell s.dp) s.ip s.prog = some q ∧ t = (s.setIp q).advance) ∨
     (resolve c (s.cell s.dp) s.ip s.prog = none ∧ t = s.raise (.bracketMismatch s.ip))) := by
  obtain ⟨hd, h⟩ := readCell_next h
  refine ⟨hd, ?_⟩
  split at h
  next q hq => cases h; exact .inl ⟨q, hq, rfl⟩
  next hq => cases h; exact .inr ⟨hq, rfl⟩

theorem jumpBy_of_lt {c : Byte} {s : State} (h : s.dp < s.tapeLen) :
    jumpBy c s =
      match resolve c (s.cell s.dp) s.ip s.prog with
      | some q => .next (s.setIp q).advance
      | none => .next (s.raise (.bracketMismatch s.ip)) :=
  readCell_of_lt h _

/-- Everything an instruction can have done if it answers a next state, up to the cases of `,` and the brackets
(`execInput_next`, `jumpBy_next`). -/
theorem exec_next {i : Instr} {s t : State} (h : exec i s = .next t) :
    (i = .add ∧ s.dp < s.tapeLen ∧ t = (s.setCell (s.cell s.dp + 1)).advance) ∨
    (i = .subtract ∧ s.dp < s.tapeLen ∧ t = (s.setCell (s.cell s.dp + 255)).advance) ∨
    (i = .moveRight ∧ t = (s.setDp (indexRight s.tapeLen s.dp)).advance) ∨
    (i = .moveLeft ∧ t = (s.setDp (indexLeft s.tapeLen s.dp)).advance) ∨
    (i = .output ∧ s.dp < s.tapeLen ∧ t = (s.outAppend (s.cell s.dp)).advance) ∨
    (i = .input ∧ execInput s = .next t) ∨
    (i = .openBracket ∧ jumpBy openBracketByte s = .next t) ∨
    (i = .closeBracket ∧ jumpBy closeBracketByte s = .next t) := by
  cases i with
  | add => exact .inl ⟨rfl, addToCell_next h⟩
  | subtract => exact .inr (.inl ⟨rfl, addToCell_next h⟩)
  | moveRight => exact .inr (.inr (.inl ⟨rfl, movePointer_next h⟩))
  | moveLeft => exact .inr (.inr (.inr (.inl ⟨rfl, movePointer_next h⟩)))
  | output => exact .inr (.inr (.inr (.inr (.inl ⟨rfl, execOutput_next h⟩))))
  | input => exact .inr (.inr (.inr (.inr (.inr (.inl ⟨rfl, h⟩)))))
  | openBracket => exact .inr (.inr (.inr (.inr (.inr (.inr (.inl ⟨rfl, h⟩))))))
  | closeBracket => exact .inr (.inr (.inr (.inr (.inr (.inr (.inr ⟨rfl, h⟩))))))

/-! ### Fetch and step -/

theorem fetch_endOfProgram {s : State} : fetch s = .endOfProgram ↔ s.progLen ≤ s.ip := by
  unfold fetch progRead
  split
  next h => simpa using List.getElem?_eq_none_iff.mp h
  next b h =>
    have := (List.getElem?_eq_some_iff.mp h).1
    split <;> simp <;> exact this

theorem fetch_instr {s : State} {i : Instr} :
    fetch s = .instr i ↔ ∃ b, progRead s.prog s.ip = some b ∧ decode b = .valid i := by
  unfold fetch
  split
  next h => simp [h]
  next b h => split <;> simp_all

theorem fetch_illegal {s : State} {c : Byte} :
    fetch s = .illegal c ↔ progRead s.prog s.ip = some c ∧ decode c = .invalidInstruction c := by
  unfold fetch
  split
  next h => simp [h]
  next b h =>
    split
    next i hi =>
      simp only [reduceCtorEq, h, Option.some.injEq, false_iff, not_and]
      rintro rfl
      simp [hi]
    next c' hi =>
      obtain rfl := decode_invalid_byte hi
      simp only [Fetched.illegal.injEq, h, Option.some.injEq]
      exact ⟨fun e => ⟨e, e ▸ hi⟩, And.left⟩

/-- Everything a step can have done if it answers a next state. -/
theorem step_next {s t : State} (h : step s = .next t) :
    s.status = .running ∧
    ((fetch s = .endOfProgram ∧ t = s.halt) ∨
     (∃ b, fetch s = .illegal b ∧ t = s.raise (.invalidInstruction b s.ip)) ∨
     (∃ i, fetch s = .instr i ∧ exec i s = .next t)) := by
  unfold step at h
  split at h
  next => cases h
  next => cases h
  next hr =>
    refine ⟨hr, ?_⟩
    split at h
    next hf => cases h; exact .inl ⟨hf, rfl⟩
    next b hf => cases h; exact .inr (.inl ⟨b, hf, rfl⟩)
    next i hf => exact .inr (.inr ⟨i, hf, h⟩)

theorem runFor_zero (s : State) : runFor 0 s = s := rfl

theorem runFor_succ_next {n : Nat} {s t : State} (h : step s = .next t) : runFor (n + 1) s = runFor n t := by
  simp [runFor, h]

/-- The byte at index `i` of a program after it was placed there. -/
theorem progRead_progPlace (prog : List Byte) (i : Nat) (b : Byte) : progRead (progPlace prog i b) i = some b := by
  unfold progRead progPlace
  rw [List.getElem?_append_right (by simp; omega)]
  simp only [List.length_append, List.length_take, List.length_replicate]
  rw [show i - (min i prog.length + (i - prog.length)) = 0 by omega]
  rfl

end Sys2Proof.Machine
end

