-- ==== Sys2Proof/Laws/PerInstr.lean ====
section
/-! SUPPORT. Statements about every instruction as syntax, one lemma for each constructor. -/

namespace Sys2Proof.Laws.RoundTrip

/-- The instruction is well formed and its byte decodes back to it (R43, R44). -/
def Statement (i : Instr) : Prop := i.wellFormed = true ∧ decode (encode i) = .valid i

theorem add : Statement .add := ⟨rfl, by decide⟩
theorem subtract : Statement .subtract := ⟨rfl, by decide⟩
theorem moveRight : Statement .moveRight := ⟨rfl, by decide⟩
theorem moveLeft : Statement .moveLeft := ⟨rfl, by decide⟩
theorem output : Statement .output := ⟨rfl, by decide⟩
theorem input : Statement .input := ⟨rfl, by decide⟩
theorem openBracket : Statement .openBracket := ⟨rfl, by decide⟩
theorem closeBracket : Statement .closeBracket := ⟨rfl, by decide⟩

end Sys2Proof.Laws.RoundTrip
end

