-- ==== Sys2Proof/Tests/Slice0.lean ====
section
/-! SUPPORT. The model's own tests: decoding words written out from the opcode map, single steps from the spec's
vectors, and a witness for the hypotheses of every statement that has some. -/

namespace Sys2Proof.Tests

open Sys2Proof Sys2Proof.Machine

/-- A fresh run of `prog` on `input` with `n` cells under policy `p`. -/
def fresh (prog input : List Byte) (n : Nat) (p : InputPolicy) : State := State.start ⟨prog, input, n, p⟩

/-- The next state, where there is one. -/
def nextOf (r : Result) : Option State :=
  match r with
  | .next s => some s
  | .fault _ => none
  | .refused _ => none

/-- `nextOf` loses nothing of a next state. -/
theorem nextOf_some {r : Result} {t : State} (h : nextOf r = some t) : r = .next t := by
  cases r <;> simp_all [nextOf]

/-- What a step left of the registers: IP, DP, IC. -/
def regs (r : Result) : Option (Nat × Nat × Nat) := (nextOf r).map fun s => (s.ip, s.dp, s.ic)

/-! ## Well-formedness (an ill-formed term for each check) -/

/-- R4: a tape of no cells is refused. -/
theorem test_wellFormed_no_cells : (Launch.wellFormed ⟨[], [], 0, .wrap⟩) = false := by decide
/-- R4: a tape of one cell is accepted. -/
theorem test_wellFormed_one_cell : (Launch.wellFormed ⟨[0xFF], [], 1, .wrap⟩) = true := by decide
/-- Glossary: a `]` before its `[` is refused, and so is a `[` that stays open. -/
theorem test_balanced_refuses : balanced [0x5D, 0x5B] = false ∧ balanced [0x5B] = false := by decide
/-- V-JMP: the pairs of `+[[]+]` are 1↔5 and 2↔3; 1 and 3 do not match. -/
theorem test_matchingPair : matchingPair [0x2B, 0x5B, 0x5B, 0x5D, 0x2B, 0x5D] 1 5 = true ∧
    matchingPair [0x2B, 0x5B, 0x5B, 0x5D, 0x2B, 0x5D] 2 3 = true ∧
    matchingPair [0x2B, 0x5B, 0x5B, 0x5D, 0x2B, 0x5D] 1 3 = false := by decide
/-- The canonical form refuses a listed initial value and indices that do not rise. -/
theorem test_memory_wf_refuses : Memory.wf [(3, 0)] = false ∧ Memory.wf [(3, 1), (3, 2)] = false := by decide

/-! ## Decoding: the words of R43, bit by bit -/

theorem test_decode_add : decode 0b00101011 = .valid .add := by decide
theorem test_decode_subtract : decode 0b00101101 = .valid .subtract := by decide
theorem test_decode_moveRight : decode 0b00111110 = .valid .moveRight := by decide
theorem test_decode_moveLeft : decode 0b00111100 = .valid .moveLeft := by decide
theorem test_decode_output : decode 0b00101110 = .valid .output := by decide
theorem test_decode_input : decode 0b00101100 = .valid .input := by decide
theorem test_decode_openBracket : decode 0b01011011 = .valid .openBracket := by decide
theorem test_decode_closeBracket : decode 0b01011101 = .valid .closeBracket := by decide
/-- V-DEC: the neighbours, white space, and two symbols with bit 7 set are all Invalid. -/
theorem test_decode_neighbours :
    ([0x00, 0xFF, 0x2A, 0x2F, 0x3B, 0x3D, 0x3F, 0x5A, 0x5C, 0x5E, 0x20, 0x09, 0x0A, 0x0D, 0xAB, 0xDD] :
      List Byte).all (fun b => decode b == .invalidInstruction b) = true := by decide
/-- V-DEC: exactly 8 of the 256 byte values decode. -/
theorem test_decode_count :
    ((List.range 256).filter fun n => (decodeTableWord 8 n).isSome).length = 8 := by decide
/-- R49: the two brackets share kind code 6 and keep their literal bytes; an illegal byte is not valid. -/
theorem test_decoderLines : decoderLines 0x5D = ⟨6, true, 0x5D⟩ ∧ decoderLines 0x3E = ⟨2, true, 0x3E⟩ ∧
    (decoderLines 0x78).valid = false := by decide
/-- W7, R50: the text "+." is the bytes 2B 2E. -/
theorem test_textBytes : textBytes ['+', '.'] = some [0x2B, 0x2E] := by decide

/-! ## Reset and the placed word -/

/-- R94: the reset values that R94 lists. -/
theorem test_reset : State.reset.status = .running ∧ State.reset.ip = 0 ∧ State.reset.dp = 0 ∧
    State.reset.ic = 0 ∧ State.reset.out = [] ∧ State.reset.cell 5 = 0 ∧ State.reset.fault = .none := by decide
/-- R52: with nothing loaded the first step halts. -/
theorem test_reset_halts : (nextOf (step State.reset)).map (·.status) = some .halted := by decide
/-- V-ARITH-1 as the first instruction after reset, on a tape of unknown length. -/
theorem test_first_instruction : (nextOf (step (State.reset.withFetchWord 8 0x2B))).map (fun t => (t.cell 0, t.ip)) =
    some (1, 1) := by decide

/-! ## Single steps -/

/-- V-ARITH-3: 255 becomes 0, and the tape is canonical again. -/
theorem test_add_wraps : (nextOf (exec .add { fresh [] [] 8 .wrap with tape := [(2, 255)], dp := 2 })).map
    (fun t => (t.tape, t.ip)) = some ([], 1) := by decide
/-- V-ARITH-2. -/
theorem test_add_254 : (nextOf (exec .add { fresh [] [] 8 .wrap with tape := [(0, 254), (7, 9)] })).map (·.tape) =
    some [(0, 255), (7, 9)] := by decide
/-- V-ARITH-5: 0 becomes 255. -/
theorem test_subtract_wraps : (nextOf (exec .subtract (fresh [] [] 8 .wrap))).map (·.tape) = some [(0, 255)] := by
  decide
/-- V-ARITH-6. -/
theorem test_subtract_128 : (nextOf (exec .subtract { fresh [] [] 8 .wrap with tape := [(0, 128)] })).map
    (·.cell 0) = some 127 := by decide
/-- V-PTR-3. -/
theorem test_moveRight_wraps : regs (exec .moveRight { fresh [] [] 8 .wrap with dp := 7 }) = some (1, 0, 0) := by decide
/-- V-PTR-6. -/
theorem test_moveRight_one_cell : regs (exec .moveRight (fresh [] [] 1 .wrap)) = some (1, 0, 0) := by decide
/-- V-PTR-4. -/
theorem test_moveLeft_wraps : regs (exec .moveLeft (fresh [] [] 8 .wrap)) = some (1, 7, 0) := by decide
/-- V-PTR-5. -/
theorem test_moveLeft_5 : regs (exec .moveLeft { fresh [] [] 8 .wrap with dp := 5 }) = some (1, 4, 0) := by decide
/-- V-IO: the byte 0 is appended like any other. -/
theorem test_output_zero : (nextOf (exec .output { fresh [] [] 8 .wrap with out := [1] })).map (·.out) =
    some [1, 0] := by decide
/-- V-IO, Wrap at cursor 1 of [8, 9]: the cursor wraps; and Wrap with an empty INPUT: the fault, IP kept. -/
theorem test_input_wrap : (nextOf (exec .input { fresh [] [8, 9] 8 .wrap with ic := 1 })).map
      (fun t => (t.cell 0, t.ic)) = some (9, 0) ∧
    (nextOf (exec .input { fresh [] [] 8 .wrap with ip := 3 })).map (fun t => (t.fault, t.status, t.ip)) =
      some (.inputExhausted 3, .faulted, 3) := by decide
/-- V-IO at cursor 2 of [8, 9]: Fault faults, Zero clears the cell, Unchanged keeps it, and IC stays. -/
theorem test_input_at_end :
    (nextOf (exec .input { fresh [] [8, 9] 8 .fault with ic := 2 })).map (·.fault) = some (.inputExhausted 0) ∧
    (nextOf (exec .input { fresh [] [8, 9] 8 .zero with ic := 2, tape := [(0, 5)] })).map
      (fun t => (t.cell 0, t.ic)) = some (0, 2) ∧
    (nextOf (exec .input { fresh [] [8, 9] 8 .unchanged with ic := 2, tape := [(0, 5)] })).map
      (fun t => (t.cell 0, t.ic)) = some (5, 2) := by decide

/-- The program of V-JMP, `+[[]+]`. -/
def nested : List Byte := [0x2B, 0x5B, 0x5B, 0x5D, 0x2B, 0x5D]

/-- V-JMP: `[` at 1 on cell 0 lands at 6, at 2 at 4, and on cell 5 at 2. -/
theorem test_openBracket : regs (exec .openBracket { fresh nested [] 8 .wrap with ip := 1 }) = some (6, 0, 0) ∧
    regs (exec .openBracket { fresh nested [] 8 .wrap with ip := 2 }) = some (4, 0, 0) ∧
    regs (exec .openBracket { fresh nested [] 8 .wrap with ip := 1, tape := [(0, 5)] }) = some (2, 0, 0) := by decide
/-- V-JMP: `]` at 5 on cell 1 lands at 2, at 3 at 3, and on cell 0 at 6. -/
theorem test_closeBracket :
    regs (exec .closeBracket { fresh nested [] 8 .wrap with ip := 5, tape := [(0, 1)] }) = some (2, 0, 0) ∧
    regs (exec .closeBracket { fresh nested [] 8 .wrap with ip := 3, tape := [(0, 1)] }) = some (3, 0, 0) ∧
    regs (exec .closeBracket { fresh nested [] 8 .wrap with ip := 5 }) = some (6, 0, 0) := by decide
/-- V-JMP mismatch vectors: `[[]` at 0 and `[]]` at 2 run off the program, `[[]` at 1 does not. -/
theorem test_mismatch : scanForward [0x5B, 0x5B, 0x5D] 0 = none ∧ scanBackward [0x5B, 0x5D, 0x5D] 2 = none ∧
    scanForward [0x5B, 0x5B, 0x5D] 1 = some 2 := by decide
/-- V-DEC `[x].`: the illegal byte between the brackets is passed over. -/
theorem test_scan_skips_illegal :
    regs (step (fresh [0x5B, 0x78, 0x5D, 0x2E] [] 8 .wrap)) = some (3, 0, 0) := by decide
/-- V-FAULT `+ .` at IP 1: cause 1, the byte, the position, STATUS 0b10. -/
theorem test_fault_registers : (nextOf (step { fresh [0x2B, 0x20, 0x2E] [] 8 .wrap with ip := 1 })).map
    (fun t => (t.fault.cause, t.fault.byte, t.fault.pos, t.ip, t.status.code)) = some (1, 0x20, 1, 1, 0b10) := by decide
/-- W9: the pairs of `+[[]+]` stand in its match table. -/
theorem test_matchTable : matchTable nested = [(2, 3), (1, 5)] := by decide
/-- W7 in three steps: two instructions and the halt. -/
theorem test_execute_plus_dot : execute 3 ⟨[0x2B, 0x2E], [], 1, .wrap⟩ = some (.ok [1]) := by decide

/-! ## Witnesses: the hypotheses of each statement can be met, clause by clause -/

/-- A state at the instruction `i` with a current cell of `v`, a two-byte input and the cursor at `ic`. -/
def at_ (i : Instr) (v : Byte) (ic : Nat) (p : InputPolicy) : State :=
  { fresh [encode i] [8, 9] 2 p with tape := Memory.write [] 0 v, ic := ic }

theorem witness_ProgramEncodingRoundTrips : ([0x2B, 0x5D] : List Byte).map decode =
    ([.add, .closeBracket] : List Instr).map .valid := by decide

theorem witness_StepRunsTheDecodedInstruction : (at_ .output 7 0 .wrap).status = .running ∧
    progRead (at_ .output 7 0 .wrap).prog (at_ .output 7 0 .wrap).ip = some 0x2E ∧
    decode 0x2E = .valid .output ∧ Instr.output.wellFormed = true := by decide

theorem witness_PlacedWordRunsNext : decodeTableWord 8 0x5B = some .openBracket := by decide

theorem witness_HaltCheckWritesOnlyStatus : (fresh [] [5] 1 .wrap).status = .running ∧
    (fresh [] [5] 1 .wrap).progLen ≤ (fresh [] [5] 1 .wrap).ip := by decide

theorem witness_TerminalStatesNeverChange : ((fresh [] [] 1 .wrap).halt).status = .halted ∧
    ((fresh [0x5B] [] 1 .wrap).raise (.bracketMismatch 0)).status = .faulted := by decide

theorem witness_IllegalByteFaultsWithoutEffect : (fresh [0x78] [] 1 .wrap).status = .running ∧
    progRead (fresh [0x78] [] 1 .wrap).prog (fresh [0x78] [] 1 .wrap).ip = some 0x78 ∧
    ∀ i, decode 0x78 ≠ .valid i :=
  ⟨rfl, rfl, fun i h => by rw [show decode 0x78 = .invalidInstruction 0x78 by decide] at h; cases h⟩

/-- An instruction that is no bracket, a taken `[`, a taken `]`, and a last instruction. -/
theorem witness_PointerAdvancesByOneAfterDispatch :
    (nextOf (exec .add (at_ .add 255 0 .wrap))).map (·.status) = some .running ∧
    (nextOf (exec .openBracket (fresh [0x5B, 0x5D] [] 1 .wrap))).map (·.status) = some .running ∧
    (fresh [0x5B, 0x5D] [] 1 .wrap).cell 0 = 0 ∧
    (nextOf (exec .closeBracket { fresh [0x5B, 0x5D] [] 1 .wrap with ip := 1, tape := [(0, 1)] })).map (·.status) =
      some .running ∧
    ({ fresh [0x5B, 0x5D] [] 1 .wrap with ip := 1, tape := [(0, 1)] } : State).cell 0 ≠ 0 ∧
    (at_ .add 255 0 .wrap).ip < (at_ .add 255 0 .wrap).progLen := by decide

theorem witness_cell_arithmetic : (at_ .add 255 0 .wrap).dp < (at_ .add 255 0 .wrap).tapeLen ∧
    Memory.wf (at_ .add 255 0 .wrap).tape = true ∧
    (at_ .subtract 0 0 .wrap).dp < (at_ .subtract 0 0 .wrap).tapeLen ∧
    Memory.wf (at_ .subtract 0 0 .wrap).tape = true := by decide

/-- The first cell, the last cell and a tape of one cell. -/
theorem witness_pointer_moves : 1 ≤ (fresh [] [] 2 .wrap).tapeLen ∧
    (fresh [] [] 2 .wrap).dp + 1 < (fresh [] [] 2 .wrap).tapeLen ∧
    (fresh [] [] 1 .wrap).dp + 1 = (fresh [] [] 1 .wrap).tapeLen ∧
    (fresh [] [] 2 .wrap).dp = 0 ∧
    0 < ({ fresh [] [] 2 .wrap with dp := 1 } : State).dp ∧
    ({ fresh [] [] 2 .wrap with dp := 1 } : State).dp < (fresh [] [] 2 .wrap).tapeLen := by decide

theorem witness_OutputAppendsTheCurrentCell :
    (at_ .output 0 0 .wrap).dp < (at_ .output 0 0 .wrap).tapeLen := by decide

/-- An empty input; the cursor before the last byte; the cursor at the last byte. -/
theorem witness_InputUnderWrap : (fresh [] [] 1 .wrap).policy = .wrap ∧ (fresh [] [] 1 .wrap).inputLen = 0 ∧
    (at_ .input 3 0 .wrap).ic + 1 < (at_ .input 3 0 .wrap).inputLen ∧
    (at_ .input 3 1 .wrap).ic + 1 = (at_ .input 3 1 .wrap).inputLen ∧
    (at_ .input 3 1 .wrap).dp < (at_ .input 3 1 .wrap).tapeLen ∧
    Memory.wf (at_ .input 3 1 .wrap).tape = true := by decide

/-- The cursor at the last byte and at the end, for the three policies that stop there. -/
theorem witness_input_under_the_other_policies :
    ([.fault, .zero, .unchanged] : List InputPolicy).all (fun p =>
      (at_ .input 3 1 p).policy == p && decide ((at_ .input 3 1 p).ic < (at_ .input 3 1 p).inputLen) &&
      decide ((at_ .input 3 1 p).dp < (at_ .input 3 1 p).tapeLen) && Memory.wf (at_ .input 3 1 p).tape &&
      decide ((at_ .input 3 2 p).inputLen ≤ (at_ .input 3 2 p).ic)) = true := by decide

/-- Not taken; taken with the match at the last byte; taken without a match. -/
theorem witness_OpenBracketFollowsTheCell : (at_ .openBracket 5 0 .wrap).dp < (at_ .openBracket 5 0 .wrap).tapeLen ∧
    (at_ .openBracket 5 0 .wrap).cell 0 ≠ 0 ∧
    (fresh [0x5B, 0x5D] [] 1 .wrap).cell 0 = 0 ∧ FirstZeroForward (fresh [0x5B, 0x5D] [] 1 .wrap).prog 0 1 ∧
    (at_ .openBracket 0 0 .wrap).cell 0 = 0 ∧ ∀ q, ¬ FirstZeroForward (at_ .openBracket 0 0 .wrap).prog 0 q :=
  ⟨by decide, by decide, by decide, ⟨by decide, by decide, by decide, fun j _ _ => by omega⟩, by decide,
    fun q h => by
      have h1 := h.1
      have h2 : q < 1 := h.2.1
      omega⟩

/-- Not taken; taken with the match at index 0; taken without a match. -/
theorem witness_CloseBracketFollowsTheCell :
    (at_ .closeBracket 0 0 .wrap).dp < (at_ .closeBracket 0 0 .wrap).tapeLen ∧
    (at_ .closeBracket 0 0 .wrap).ip ≤ (at_ .closeBracket 0 0 .wrap).progLen ∧
    (at_ .closeBracket 0 0 .wrap).cell 0 = 0 ∧
    (at_ .closeBracket 1 0 .wrap).cell 0 ≠ 0 ∧ FirstZeroBackward [0x5B, 0x5D] 1 0 ∧
    ∀ q, ¬ FirstZeroBackward (at_ .closeBracket 1 0 .wrap).prog 0 q :=
  ⟨by decide, by decide, by decide, by decide, ⟨by decide, by decide, fun j _ _ => by omega⟩,
    fun _ h => absurd h.1 (Nat.not_lt_zero _)⟩

theorem witness_scans : scanForward nested 1 = some 5 ∧ scanBackward nested 5 = some 1 ∧ 5 ≤ nested.length := by
  decide

theorem witness_MatchingBracketsResolveToEachOther : matchingPair nested 1 5 = true := by decide

theorem witness_BalancedProgramPairsEveryBracket : balanced nested = true ∧
    progRead nested 1 = some openBracketByte ∧ progRead nested 5 = some closeBracketByte := by decide

theorem witness_MatchTableResolvesAsTheScans : progRead nested 1 = some openBracketByte := by decide

/-- `[x]` and `[+]` have their brackets at the same places. -/
theorem witness_ScansIgnoreOtherBytes : ([0x5B, 0x78, 0x5D] : List Byte).length = ([0x5B, 0x2B, 0x5D] : List Byte).length ∧
    ∀ i, (progRead [0x5B, 0x78, 0x5D] i = some openBracketByte ↔ progRead [0x5B, 0x2B, 0x5D] i = some openBracketByte) ∧
      (progRead [0x5B, 0x78, 0x5D] i = some closeBracketByte ↔
        progRead [0x5B, 0x2B, 0x5D] i = some closeBracketByte) :=
  ⟨rfl, fun i => match i with
    | 0 => by decide
    | 1 => by decide
    | 2 => by decide
    | _ + 3 => by simp [progRead]⟩

/-- A step that faults by decode, and instructions that fault: `,` under Wrap and under Fault, `[` and `]`. -/
theorem witness_faulting_steps :
    (nextOf (step (fresh [0x78] [] 1 .wrap))).map (·.status) = some .faulted ∧
    (nextOf (exec .input (fresh [0x2C] [] 1 .wrap))).map (·.status) = some .faulted ∧
    (nextOf (exec .input (at_ .input 0 2 .fault))).map (·.status) = some .faulted ∧
    (nextOf (exec .openBracket (at_ .openBracket 0 0 .wrap))).map (·.status) = some .faulted ∧
    (nextOf (exec .closeBracket (at_ .closeBracket 1 0 .wrap))).map (·.status) = some .faulted ∧
    (at_ .closeBracket 1 0 .wrap).status ≠ .faulted := by decide

/-- A step that faults with each cause (an illegal byte, `[`, `]`, `,`), one that halts, and one that goes on with no
fault recorded before. -/
theorem witness_FaultRegistersRecordTheFault :
    (nextOf (step (fresh [0x78] [] 1 .wrap))).map (fun t => (t.status.code, t.fault.cause)) = some (0b10, 1) ∧
    (nextOf (step (at_ .openBracket 0 0 .wrap))).map (fun t => (t.status.code, t.fault.cause)) = some (0b10, 2) ∧
    (nextOf (step (at_ .closeBracket 1 0 .wrap))).map (fun t => (t.status.code, t.fault.cause)) = some (0b10, 2) ∧
    (nextOf (step (at_ .input 0 2 .fault))).map (fun t => (t.status.code, t.fault.cause)) = some (0b10, 3) ∧
    (nextOf (step (fresh [] [] 1 .wrap))).map (·.status.code) = some 0b01 ∧
    (at_ .add 255 1 .wrap).fault = .none ∧
    (nextOf (step (at_ .add 255 1 .wrap))).map (fun t => (t.status.code, t.fault.cause)) = some (0b00, 0) := by decide

/-- The model's own stops, each in a state that no run reaches. -/
theorem witness_MeaningsStopOnlyOutsideTheRanges :
    exec .add { fresh [] [] 1 .wrap with dp := 1 } = .fault (.cellOutsideTape 1) ∧
    exec .input { fresh [] [8] 1 .wrap with ic := 1 } = .fault (.byteOutsideInput 1) := ⟨rfl, rfl⟩

theorem witness_ResetMeetsTheInvariants : Launch.wellFormed ⟨nested, [8], 1, .zero⟩ = true := by decide

/-- A state in mid-run that meets the invariants and steps, for the statements about every step. -/
theorem witness_steps_from_invariant_states : (at_ .add 255 1 .wrap).Inv ∧ (at_ .add 255 1 .wrap).EndExplained ∧
    (at_ .add 255 1 .wrap).status = .running ∧ (nextOf (step (at_ .add 255 1 .wrap))).isSome = true := by decide

/-- The last step of a run, and a step that appends to OUT. -/
theorem witness_last_step_and_output : ({ at_ .add 255 1 .wrap with ip := 1 } : State).Inv ∧
    (nextOf (step { at_ .add 255 1 .wrap with ip := 1 })).map (·.status) = some .halted ∧
    (nextOf (step (at_ .output 7 1 .wrap))).map (·.out) = some [7] := by decide

/-- Every instruction answers a next state somewhere, as the write table's hypothesis asks. -/
theorem witness_InstructionsWriteOnlyTheirRow :
    ([.add, .subtract, .moveRight, .moveLeft, .output, .input, .openBracket, .closeBracket] : List Instr).all
      (fun i => (nextOf (exec i (at_ i 0 0 .wrap))).isSome) = true := by decide

/-- `execute` has both kinds of result, and none before the run has ended. -/
theorem witness_execute : execute 2 ⟨[0x2E], [], 1, .wrap⟩ = some (.ok [0]) ∧
    execute 1 ⟨[0x5B], [], 1, .wrap⟩ = some (.err (.bracketMismatch 0)) ∧
    execute 1 ⟨[0x2E], [], 1, .wrap⟩ = none ∧ Launch.wellFormed ⟨[0x2E], [], 1, .wrap⟩ = true := by decide

/-- A state with two different cells and its mirror, at a `>` and at a `<`: cells 1 and 2 of three change places. -/
theorem witness_MirroredStateStepsAlike :
    ({ fresh [0x3E] [] 3 .wrap with tape := [(0, 5), (2, 7)], dp := 2 } : State).Inv ∧
    Memory.wf [(0, 5), (1, 7)] = true ∧
    ({ fresh [0x3E] [] 3 .wrap with tape := [(0, 5), (2, 7)], dp := 2 } : State).Mirrored
      { fresh [0x3C] [] 3 .wrap with tape := [(0, 5), (1, 7)], dp := 1 } ∧
    (nextOf (step { fresh [0x3E] [] 3 .wrap with tape := [(0, 5), (2, 7)], dp := 2 })).isSome = true :=
  ⟨by decide, by decide,
    ⟨rfl, rfl, fun a ha => by
      have ha : a < 3 := ha
      interval_cases a <;> decide, rfl, rfl, rfl, rfl, rfl⟩, by decide⟩

end Sys2Proof.Tests
end

section
/-! The start state meets the invariants of a run (R4, R22, R94): the base case of every induction over the steps. -/

namespace Sys2Proof

theorem Launch.wellFormed_iff {l : Launch} : l.wellFormed = true ↔ 1 ≤ l.tapeLen := decide_eq_true_iff

/-- The open tape length has at least one cell by its form, whatever `Config.extraCells` is (R4). -/
theorem Config.launch_wellFormed : Config.launch.wellFormed = true :=
  Launch.wellFormed_iff.mpr (Nat.le_add_left 1 Config.extraCells)

end Sys2Proof

namespace Sys2Proof.Machine

@[simp] theorem Memory.wf_nil : Memory.wf [] = true := rfl
@[simp] theorem Memory.below_nil (n : Nat) : Memory.below n [] = true := rfl

/-- `IC` starts at 0, which is in range for every policy: under `Wrap` a non-empty input has a byte at 0 (R17). -/
theorem State.start_icInRange (l : Launch) : (State.start l).IcInRange :=
  ⟨fun _ hne => Nat.pos_of_ne_zero hne, fun _ _ => rfl, fun _ => Nat.zero_le _⟩

/-- Of the invariants only `DP < TAPE_LEN` and `1 ≤ TAPE_LEN` lean on the launch data: the tape must have a cell 0. -/
theorem State.start_inv {l : Launch} (h : l.wellFormed = true) : (State.start l).Inv := by
  have hlen : 1 ≤ l.tapeLen := Launch.wellFormed_iff.mp h
  have hfault : (State.start l).status = .faulted ↔ (State.start l).fault ≠ .none := by simp
  exact ⟨hlen, hlen, Nat.zero_le _, State.start_icInRange l, hfault, Memory.wf_nil, Memory.below_nil _⟩

/-- Nothing has ended yet, so there is no end to explain. -/
theorem State.start_endExplained (l : Launch) : (State.start l).EndExplained :=
  ⟨by simp, by simp [State.faultExplained]⟩

end Sys2Proof.Machine

open Sys2Proof Sys2Proof.Machine

/-- Settles O33: `State.reset` is the start state of `Config.launch`, a well-formed launch, so both parts are the
one fact about start states. -/
theorem resetMeetsTheInvariants : Obligations.ResetMeetsTheInvariants := by
  have hstart : ∀ l : Launch, l.wellFormed = true → (State.start l).Inv ∧ (State.start l).EndExplained :=
    fun l h => ⟨State.start_inv h, State.start_endExplained l⟩
  exact ⟨hstart, hstart Config.launch Config.launch_wellFormed⟩
end

section
/-! The index a resolver answers lies inside the program: a scan answers only an index it has read (R75 to R77). -/

namespace Sys2Proof.Machine

theorem scanForwardFrom_lt {rest : List Byte} {j bal q : Nat} (h : scanForwardFrom rest j bal = some q) :
    q < j + rest.length := by
  induction rest generalizing j bal with
  | nil => cases h
  | cons b rest ih =>
    rw [scanForwardFrom_cons] at h
    rw [List.length_cons]
    split at h
    · cases h
      omega
    · have := ih h
      omega

theorem scanForward_lt {prog : List Byte} {p q : Nat} (hp : p < prog.length) (h : scanForward prog p = some q) :
    q < prog.length := by
  have := scanForwardFrom_lt h
  rw [List.length_drop] at this
  omega

theorem scanBackwardFrom_lt {prog : List Byte} {j bal q : Nat} (h : scanBackwardFrom prog j bal = some q) :
    q < prog.length := by
  induction j generalizing bal with
  | zero => cases h
  | succ j ih =>
    cases hb : progRead prog j with
    | none => simp [scanBackwardFrom, hb] at h
    | some b =>
      rw [scanBackwardFrom_succ hb] at h
      split at h
      · cases h
        exact (List.getElem?_eq_some_iff.mp hb).1
      · exact ih h

theorem resolve_lt {c v : Byte} {p q : Nat} {prog : List Byte} (hp : p < prog.length)
    (h : resolve c v p prog = some q) : q < prog.length := by
  unfold resolve at h
  split at h
  · split at h
    · exact scanForward_lt hp h
    · exact scanBackwardFrom_lt h
  · cases h
    exact hp

/-- The halt check comes before the fetch (R52), so an instruction is fetched only inside the program. -/
theorem ip_lt_of_fetch_instr {s : State} {i : Instr} (h : fetch s = .instr i) : s.ip < s.progLen := by
  by_contra hge
  rw [fetch_endOfProgram.mpr (Nat.le_of_not_lt hge)] at h
  cases h

end Sys2Proof.Machine
end

section
/-! Each state operation keeps the invariants of a run (R22), under the condition on the value it writes; the
instructions and the step are compositions of these operations. -/

namespace Sys2Proof.Machine

theorem State.Inv.advance {s : State} (h : s.Inv) (hlt : s.ip < s.progLen) : s.advance.Inv := by
  obtain ⟨hlen, hdp, -, hic, hfault, hwf, hbelow⟩ := h
  exact ⟨hlen, hdp, hlt, hic, hfault, hwf, hbelow⟩

theorem State.Inv.setIp {s : State} {n : Nat} (h : s.Inv) (hn : n ≤ s.progLen) : (s.setIp n).Inv := by
  obtain ⟨hlen, hdp, -, hic, hfault, hwf, hbelow⟩ := h
  exact ⟨hlen, hdp, hn, hic, hfault, hwf, hbelow⟩

theorem State.Inv.setDp {s : State} {n : Nat} (h : s.Inv) (hn : n < s.tapeLen) : (s.setDp n).Inv := by
  obtain ⟨hlen, -, hip, hic, hfault, hwf, hbelow⟩ := h
  exact ⟨hlen, hn, hip, hic, hfault, hwf, hbelow⟩

theorem State.Inv.setIc {s : State} {n : Nat} (h : s.Inv) (hn : (s.setIc n).IcInRange) : (s.setIc n).Inv := by
  obtain ⟨hlen, hdp, hip, -, hfault, hwf, hbelow⟩ := h
  exact ⟨hlen, hdp, hip, hn, hfault, hwf, hbelow⟩

theorem State.Inv.setCell {s : State} (h : s.Inv) (v : Byte) : (s.setCell v).Inv := by
  obtain ⟨hlen, hdp, hip, hic, hfault, hwf, hbelow⟩ := h
  exact ⟨hlen, hdp, hip, hic, hfault, Memory.wf_write hwf, Memory.below_write hbelow hdp⟩

/-- No invariant speaks of OUT. -/
theorem State.Inv.outAppend {s : State} (h : s.Inv) (v : Byte) : (s.outAppend v).Inv := h

theorem State.Inv.raise {s : State} {r : FaultRecord} (h : s.Inv) (hr : r ≠ .none) : (s.raise r).Inv := by
  obtain ⟨hlen, hdp, hip, hic, -, hwf, hbelow⟩ := h
  exact ⟨hlen, hdp, hip, hic, iff_of_true rfl hr, hwf, hbelow⟩

theorem State.Inv.fault_none {s : State} (h : s.Inv) (hs : s.status ≠ .faulted) : s.fault = .none := by
  obtain ⟨-, -, -, -, hfault, -, -⟩ := h
  exact not_not.mp (mt hfault.mpr hs)

/-- Halting keeps the record, so it needs that none stands: the run has not faulted before. -/
theorem State.Inv.halt {s : State} (h : s.Inv) (hs : s.status ≠ .faulted) : s.halt.Inv := by
  have hnone : s.fault = .none := h.fault_none hs
  obtain ⟨hlen, hdp, hip, hic, -, hwf, hbelow⟩ := h
  exact ⟨hlen, hdp, hip, hic, iff_of_false nofun (not_not.mpr hnone), hwf, hbelow⟩

/-- The cursor after a byte was taken is in range: circular under `Wrap`, one further under every other policy (R17). -/
theorem State.setIc_icInRange {s : State} {n : Nat} (hlt : s.ic < s.inputLen)
    (hn : (s.policy = .wrap ∧ n = (s.ic + 1) % s.inputLen) ∨ (s.policy ≠ .wrap ∧ n = s.ic + 1)) :
    (s.setIc n).IcInRange := by
  have hpos : 0 < s.inputLen := Nat.zero_lt_of_lt hlt
  rcases hn with ⟨hp, rfl⟩ | ⟨hp, rfl⟩
  · exact ⟨fun _ _ => Nat.mod_lt _ hpos, fun _ h0 => absurd h0 hpos.ne', fun hne => absurd hp hne⟩
  · exact ⟨fun hw => absurd hw hp, fun hw => absurd hw hp, fun _ => hlt⟩

theorem execInput_keeps_inv {s t : State} (h : s.Inv) (hip : s.ip < s.progLen) (he : execInput s = .next t) :
    t.Inv := by
  rcases execInput_next he with ⟨-, rfl⟩ | ⟨b, n, hb, -, hn, rfl⟩ | ⟨-, -, -, rfl⟩ | ⟨-, -, rfl⟩
  · exact h.raise nofun
  · have hlt : s.ic < s.inputLen := (List.getElem?_eq_some_iff.mp hb).1
    have hic : ((s.setCell b).setIc n).IcInRange := State.setIc_icInRange (s := s.setCell b) hlt hn
    exact ((h.setCell b).setIc hic).advance hip
  · exact (h.setCell 0).advance hip
  · exact h.advance hip

theorem jumpBy_keeps_inv {c : Byte} {s t : State} (h : s.Inv) (hip : s.ip < s.progLen)
    (he : jumpBy c s = .next t) : t.Inv := by
  obtain ⟨-, ⟨q, hq, rfl⟩ | ⟨-, rfl⟩⟩ := jumpBy_next he
  · have hlt : q < s.progLen := resolve_lt hip hq
    exact (h.setIp hlt.le).advance hlt
  · exact h.raise nofun

theorem exec_keeps_inv {i : Instr} {s t : State} (h : s.Inv) (hip : s.ip < s.progLen)
    (he : exec i s = .next t) : t.Inv := by
  have hlen : 0 < s.tapeLen := h.1
  cases i with
  | add | subtract =>
    obtain ⟨-, rfl⟩ := addToCell_next he
    exact (h.setCell _).advance hip
  | moveRight | moveLeft =>
    obtain rfl := movePointer_next he
    exact (h.setDp (Nat.mod_lt _ hlen)).advance hip
  | output =>
    obtain ⟨-, rfl⟩ := execOutput_next he
    exact (h.outAppend _).advance hip
  | input => exact execInput_keeps_inv h hip he
  | openBracket | closeBracket => exact jumpBy_keeps_inv h hip he

end Sys2Proof.Machine

open Sys2Proof Sys2Proof.Machine

/-- Settles O34: a step halts, raises, or runs an instruction fetched inside the program, and each keeps the
invariants. -/
theorem stepKeepsTheInvariants : Obligations.StepKeepsTheInvariants := by
  intro s t h hstep
  obtain ⟨hrun, ⟨-, rfl⟩ | ⟨b, -, rfl⟩ | ⟨i, hi, he⟩⟩ := step_next hstep
  · exact h.halt (by simp [hrun])
  · exact h.raise nofun
  · exact exec_keeps_inv h (ip_lt_of_fetch_instr hi) he
end

section
/-! The frames of the instructions (R23): what each one leaves unchanged. -/

namespace Sys2Proof.Machine

theorem State.SameTape.sameTapeBut {s t : State} (h : s.SameTape t) (x : Nat) : s.SameTapeBut t x :=
  fun a _ => h a

theorem State.setCell_sameTapeBut (s : State) (v : Byte) : s.SameTapeBut (s.setCell v) s.dp :=
  fun _ ha => State.setCell_cell_other ha

theorem addToCell_frame {d : Byte} {s t : State} (h : addToCell d s = .next t) :
    s.SameTapeBut t s.dp ∧ t.dp = s.dp ∧ t.ic = s.ic ∧ t.out = s.out ∧ s.SameRun t := by
  obtain ⟨-, rfl⟩ := addToCell_next h
  exact ⟨s.setCell_sameTapeBut _, rfl, rfl, rfl, rfl, rfl, rfl⟩

theorem movePointer_frame {n : Nat} {s t : State} (h : movePointer n s = .next t) :
    s.SameTape t ∧ t.ic = s.ic ∧ t.out = s.out ∧ s.SameRun t := by
  obtain rfl := movePointer_next h
  exact ⟨fun _ => rfl, rfl, rfl, rfl, rfl, rfl⟩

theorem execOutput_frame {s t : State} (h : execOutput s = .next t) :
    s.SameTape t ∧ t.dp = s.dp ∧ t.ic = s.ic ∧ s.SameRun t := by
  obtain ⟨-, rfl⟩ := execOutput_next h
  exact ⟨fun _ => rfl, rfl, rfl, rfl, rfl, rfl⟩

theorem execInput_frame {s t : State} (h : execInput s = .next t) :
    t.launch = s.launch ∧ s.SameTapeBut t s.dp ∧ t.dp = s.dp ∧ t.out = s.out := by
  rcases execInput_next h with ⟨-, rfl⟩ | ⟨b, n, -, -, -, rfl⟩ | ⟨-, -, -, rfl⟩ | ⟨-, -, rfl⟩
  · exact ⟨rfl, fun _ _ => rfl, rfl, rfl⟩
  · exact ⟨rfl, s.setCell_sameTapeBut b, rfl, rfl⟩
  · exact ⟨rfl, s.setCell_sameTapeBut 0, rfl, rfl⟩
  · exact ⟨rfl, fun _ _ => rfl, rfl, rfl⟩

theorem jumpBy_frame {c : Byte} {s t : State} (h : jumpBy c s = .next t) :
    t.launch = s.launch ∧ s.SameTape t ∧ t.dp = s.dp ∧ t.ic = s.ic ∧ t.out = s.out := by
  obtain ⟨-, ⟨q, -, rfl⟩ | ⟨-, rfl⟩⟩ := jumpBy_next h
  · exact ⟨rfl, fun _ => rfl, rfl, rfl, rfl⟩
  · exact ⟨rfl, fun _ => rfl, rfl, rfl, rfl⟩

end Sys2Proof.Machine

open Sys2Proof Sys2Proof.Machine

/-- Settles O39: each instruction's row of the write table is the frame of the operation it is made of. -/
theorem instructionsWriteOnlyTheirRow : Obligations.InstructionsWriteOnlyTheirRow := by
  intro i s t h
  cases i with
  | add | subtract =>
    obtain ⟨htape, hdp, hic, hout, hlaunch, hend⟩ := addToCell_frame h
    simp [htape, hdp, hic, hout, hlaunch, hend]
  | moveRight | moveLeft =>
    obtain ⟨htape, hic, hout, hlaunch, hend⟩ := movePointer_frame h
    simp [htape, htape.sameTapeBut, hic, hout, hlaunch, hend]
  | output =>
    obtain ⟨htape, hdp, hic, hlaunch, hend⟩ := execOutput_frame h
    simp [htape, htape.sameTapeBut, hdp, hic, hlaunch, hend]
  | input =>
    obtain ⟨hlaunch, htape, hdp, hout⟩ := execInput_frame h
    simp [htape, hdp, hout, hlaunch]
  | openBracket | closeBracket =>
    obtain ⟨hlaunch, htape, hdp, hic, hout⟩ := jumpBy_frame h
    simp [htape, htape.sameTapeBut, hdp, hic, hout, hlaunch]

/-- Settles O37: halting and raising write STATUS and FAULT only, and no row of the write table has the launch data. -/
theorem stepWritesNoLaunchData : Obligations.StepWritesNoLaunchData := by
  intro s t h
  obtain ⟨-, ⟨-, rfl⟩ | ⟨b, -, rfl⟩ | ⟨i, -, he⟩⟩ := step_next h
  · exact s.halt_launch
  · exact s.raise_launch _
  · exact (instructionsWriteOnlyTheirRow i s t he).1
end

section
/-! No operation reads STATUS or FAULT (R24): on a state with other values in them it takes the same branch, so an
outcome that hides them is the same wherever the continuations' outcomes are. -/

namespace Sys2Proof.Machine

/-- `s` with other values in STATUS and FAULT. -/
def State.withEnd (s : State) (st : Status) (f : FaultRecord) : State := { s with status := st, fault := f }

section
variable {s : State} {st : Status} {f : FaultRecord}

theorem withoutStatus_ite_congr {p : Prop} [Decidable p] {a a' b b' : Result}
    (ha : withoutStatus a' = withoutStatus a) (hb : withoutStatus b' = withoutStatus b) :
    withoutStatus (if p then a' else b') = withoutStatus (if p then a else b) := by
  split
  · exact ha
  · exact hb

theorem withoutStatus_readCell_withEnd {k k' : Byte → Result}
    (h : ∀ v, withoutStatus (k' v) = withoutStatus (k v)) :
    withoutStatus (readCell (s.withEnd st f) k') = withoutStatus (readCell s k) :=
  withoutStatus_ite_congr (h _) rfl

theorem withoutStatus_writeCell_withEnd {v : Byte} {k k' : State → Result}
    (h : withoutStatus (k' ((s.setCell v).withEnd st f)) = withoutStatus (k (s.setCell v))) :
    withoutStatus (writeCell (s.withEnd st f) v k') = withoutStatus (writeCell s v k) :=
  withoutStatus_ite_congr h rfl

theorem withoutStatus_takeInput_withEnd {k k' : Byte → Result}
    (h : ∀ b, withoutStatus (k' b) = withoutStatus (k b)) :
    withoutStatus (takeInput (s.withEnd st f) k') = withoutStatus (takeInput s k) := by
  have hread : inRead (s.withEnd st f).input (s.withEnd st f).ic = inRead s.input s.ic := rfl
  unfold takeInput
  rw [hread]
  cases inRead s.input s.ic with
  | none => rfl
  | some b => exact h b

theorem withoutStatus_addToCell_withEnd (d : Byte) :
    withoutStatus (addToCell d (s.withEnd st f)) = withoutStatus (addToCell d s) :=
  withoutStatus_readCell_withEnd fun _ => withoutStatus_writeCell_withEnd rfl

theorem withoutStatus_execOutput_withEnd :
    withoutStatus (execOutput (s.withEnd st f)) = withoutStatus (execOutput s) :=
  withoutStatus_readCell_withEnd fun _ => rfl

theorem withoutStatus_storeInput_withEnd (n : Nat) :
    withoutStatus (storeInput n (s.withEnd st f)) = withoutStatus (storeInput n s) :=
  withoutStatus_takeInput_withEnd fun _ => withoutStatus_writeCell_withEnd rfl

theorem withoutStatus_execInput_withEnd :
    withoutStatus (execInput (s.withEnd st f)) = withoutStatus (execInput s) := by
  have hpolicy : (s.withEnd st f).policy = s.policy := rfl
  have hstore (n : Nat) := withoutStatus_storeInput_withEnd (s := s) (st := st) (f := f) n
  unfold execInput
  rw [hpolicy]
  cases s.policy with
  | wrap => exact withoutStatus_ite_congr rfl (hstore _)
  | fault => exact withoutStatus_ite_congr rfl (hstore _)
  | zero => exact withoutStatus_ite_congr (withoutStatus_writeCell_withEnd rfl) (hstore _)
  | unchanged => exact withoutStatus_ite_congr rfl (hstore _)

theorem withoutStatus_jumpBy_withEnd (c : Byte) :
    withoutStatus (jumpBy c (s.withEnd st f)) = withoutStatus (jumpBy c s) := by
  refine withoutStatus_readCell_withEnd fun v => ?_
  have hresolve : resolve c v (s.withEnd st f).ip (s.withEnd st f).prog = resolve c v s.ip s.prog := rfl
  rw [hresolve]
  cases resolve c v s.ip s.prog with
  | none => rfl
  | some q => rfl

end

theorem withoutStatus_exec_withEnd (i : Instr) (s : State) (st : Status) (f : FaultRecord) :
    withoutStatus (exec i (s.withEnd st f)) = withoutStatus (exec i s) := by
  cases i with
  | add => exact withoutStatus_addToCell_withEnd 1
  | subtract => exact withoutStatus_addToCell_withEnd 255
  | moveRight => rfl
  | moveLeft => rfl
  | output => exact withoutStatus_execOutput_withEnd
  | input => exact withoutStatus_execInput_withEnd
  | openBracket => exact withoutStatus_jumpBy_withEnd openBracketByte
  | closeBracket => exact withoutStatus_jumpBy_withEnd closeBracketByte

end Sys2Proof.Machine

open Sys2Proof Sys2Proof.Machine

/-- Settles O41: only the operands and the launch data decide what an instruction does, and they are the same. -/
theorem statusAndFaultAreInvisible : Obligations.StatusAndFaultAreInvisible :=
  withoutStatus_exec_withEnd
end

section
/-! Where a meaning stops (R25, R27): the operands are the only operations that answer no next state, and no operation
refuses, so a meaning stops only where an operand it asks for does not exist. -/

namespace Sys2Proof.Machine

/-- The outcome is no refusal, and if it is a stop, then for one of the reasons in `P`. -/
def StopsOnly (P : Fault → Prop) (r : Result) : Prop := (∀ x, r ≠ .refused x) ∧ ∀ f, r = .fault f → P f

/-- The tape has no cell at `DP`. -/
def State.NoCell (s : State) (f : Fault) : Prop := f = .cellOutsideTape s.dp ∧ s.tapeLen ≤ s.dp

/-- INPUT has no byte at `IC`, and the policy `Wrap` did not answer for an empty INPUT. -/
def State.NoByteUnderWrap (s : State) (f : Fault) : Prop :=
  f = .byteOutsideInput s.ic ∧ s.policy = .wrap ∧ s.inputLen ≠ 0 ∧ s.inputLen ≤ s.ic

section
variable {P Q : Fault → Prop} {s : State}

theorem stopsOnly_next (t : State) : StopsOnly P (.next t) := ⟨nofun, nofun⟩

theorem stopsOnly_fault {f : Fault} (h : P f) : StopsOnly P (.fault f) :=
  ⟨nofun, fun _ hf => by cases hf; exact h⟩

theorem StopsOnly.mono {r : Result} (h : StopsOnly P r) (hPQ : ∀ f, P f → Q f) : StopsOnly Q r :=
  ⟨h.1, fun f hf => hPQ f (h.2 f hf)⟩

theorem readCell_stopsOnly {k : Byte → Result} (hP : ∀ f, s.NoCell f → P f) (hk : ∀ v, StopsOnly P (k v)) :
    StopsOnly P (readCell s k) := by
  unfold readCell
  split
  next => exact hk _
  next hd => exact stopsOnly_fault (hP _ ⟨rfl, Nat.le_of_not_lt hd⟩)

theorem writeCell_stopsOnly {v : Byte} {k : State → Result} (hP : ∀ f, s.NoCell f → P f)
    (hk : ∀ t, StopsOnly P (k t)) : StopsOnly P (writeCell s v k) := by
  unfold writeCell
  split
  next => exact hk _
  next hd => exact stopsOnly_fault (hP _ ⟨rfl, Nat.le_of_not_lt hd⟩)

theorem takeInput_stopsOnly {k : Byte → Result} (hP : s.inputLen ≤ s.ic → P (.byteOutsideInput s.ic))
    (hk : ∀ b, StopsOnly P (k b)) : StopsOnly P (takeInput s k) := by
  unfold takeInput
  split
  next => exact hk _
  next hb => exact stopsOnly_fault (hP (List.getElem?_eq_none_iff.mp hb))

theorem storeInput_stopsOnly {n : Nat} (hcell : ∀ f, s.NoCell f → P f)
    (hbyte : s.inputLen ≤ s.ic → P (.byteOutsideInput s.ic)) : StopsOnly P (storeInput n s) :=
  takeInput_stopsOnly hbyte fun _ => writeCell_stopsOnly hcell fun _ => stopsOnly_next _

end

theorem addToCell_stopsOnly (d : Byte) (s : State) : StopsOnly s.NoCell (addToCell d s) :=
  readCell_stopsOnly (fun _ => id) fun _ => writeCell_stopsOnly (fun _ => id) fun _ => stopsOnly_next _

theorem execOutput_stopsOnly (s : State) : StopsOnly s.NoCell (execOutput s) :=
  readCell_stopsOnly (fun _ => id) fun _ => stopsOnly_next _

theorem jumpBy_stopsOnly (c : Byte) (s : State) : StopsOnly s.NoCell (jumpBy c s) := by
  refine readCell_stopsOnly (fun _ => id) fun v => ?_
  split
  · exact stopsOnly_next _
  · exact stopsOnly_next _

/-- Only `Wrap` takes a byte without asking first whether `IC` has reached the end of INPUT. -/
theorem execInput_stopsOnly (s : State) :
    StopsOnly (fun f => s.NoCell f ∨ s.NoByteUnderWrap f) (execInput s) := by
  have hstore {n : Nat} (hic : ¬ s.inputLen ≤ s.ic) :
      StopsOnly (fun f => s.NoCell f ∨ s.NoByteUnderWrap f) (storeInput n s) :=
    storeInput_stopsOnly (fun _ => .inl) fun hge => absurd hge hic
  unfold execInput
  split
  next hwrap =>
    unfold inputWrap
    split
    · exact stopsOnly_next _
    next hne => exact storeInput_stopsOnly (fun _ => .inl) fun hge => .inr ⟨rfl, hwrap, hne, hge⟩
  next =>
    unfold inputFault
    split
    · exact stopsOnly_next _
    next hic => exact hstore hic
  next =>
    unfold inputZero
    split
    · exact writeCell_stopsOnly (fun _ => .inl) fun _ => stopsOnly_next _
    next hic => exact hstore hic
  next =>
    unfold inputUnchanged
    split
    · exact stopsOnly_next _
    next hic => exact hstore hic

theorem exec_stopsOnly (i : Instr) (s : State) :
    StopsOnly (fun f => s.NoCell f ∨ i = .input ∧ s.NoByteUnderWrap f) (exec i s) := by
  cases i with
  | add => exact (addToCell_stopsOnly 1 s).mono fun _ => .inl
  | subtract => exact (addToCell_stopsOnly 255 s).mono fun _ => .inl
  | moveRight | moveLeft => exact stopsOnly_next _
  | output => exact (execOutput_stopsOnly s).mono fun _ => .inl
  | input => exact (execInput_stopsOnly s).mono fun _ => Or.imp_right fun h => ⟨rfl, h⟩
  | openBracket => exact (jumpBy_stopsOnly openBracketByte s).mono fun _ => .inl
  | closeBracket => exact (jumpBy_stopsOnly closeBracketByte s).mono fun _ => .inl

end Sys2Proof.Machine

open Sys2Proof Sys2Proof.Machine

/-- Settles O31: an instruction stops only where an operand stops it, and only `,` under `Wrap` reads INPUT unasked. -/
theorem meaningsStopOnlyOutsideTheRanges : Obligations.MeaningsStopOnlyOutsideTheRanges := by
  intro i s
  obtain ⟨hrefused, hfault⟩ := exec_stopsOnly i s
  refine ⟨hrefused, fun f hf => ?_⟩
  obtain hcell | ⟨hi, hbyte, hrest⟩ := hfault f hf
  · exact .inl hcell
  · exact .inr ⟨hbyte, hi, hrest⟩
end

section
/-! No operation reads OUT (R18, R25): bytes put in front of OUT stay in front of it and change nothing else, so every
operation commutes with putting them there. -/

namespace Sys2Proof.Machine

/-- `s` with the bytes `o` in front of OUT. -/
def State.prependOut (o : List Byte) (s : State) : State := { s with out := o ++ s.out }

/-- The outcome with the bytes `o` in front of OUT in its next state. -/
def outcomePrependOut (o : List Byte) : Result → Result
  | .next s => .next (s.prependOut o)
  | .fault f => .fault f
  | .refused r => .refused r

theorem State.prependOut_outAppend (o : List Byte) (s : State) (v : Byte) :
    (s.prependOut o).outAppend v = (s.outAppend v).prependOut o := by
  simp [State.prependOut, State.outAppend]

section
variable {o : List Byte} {s : State}

theorem outcomePrependOut_ite {p : Prop} [Decidable p] {a a' b b' : Result} (ha : a' = outcomePrependOut o a)
    (hb : b' = outcomePrependOut o b) : (if p then a' else b') = outcomePrependOut o (if p then a else b) := by
  rw [ha, hb, apply_ite (outcomePrependOut o)]

theorem readCell_prependOut {k k' : Byte → Result} (h : ∀ v, k' v = outcomePrependOut o (k v)) :
    readCell (s.prependOut o) k' = outcomePrependOut o (readCell s k) :=
  outcomePrependOut_ite (h _) rfl

theorem writeCell_prependOut {v : Byte} {k k' : State → Result}
    (h : k' ((s.setCell v).prependOut o) = outcomePrependOut o (k (s.setCell v))) :
    writeCell (s.prependOut o) v k' = outcomePrependOut o (writeCell s v k) :=
  outcomePrependOut_ite h rfl

theorem takeInput_prependOut {k k' : Byte → Result} (h : ∀ b, k' b = outcomePrependOut o (k b)) :
    takeInput (s.prependOut o) k' = outcomePrependOut o (takeInput s k) := by
  have hread : inRead (s.prependOut o).input (s.prependOut o).ic = inRead s.input s.ic := rfl
  unfold takeInput
  rw [hread]
  cases inRead s.input s.ic with
  | none => rfl
  | some b => exact h b

theorem addToCell_prependOut (d : Byte) : addToCell d (s.prependOut o) = outcomePrependOut o (addToCell d s) :=
  readCell_prependOut fun _ => writeCell_prependOut rfl

/-- `.` appends at the end, behind whatever stands in front. -/
theorem execOutput_prependOut : execOutput (s.prependOut o) = outcomePrependOut o (execOutput s) := by
  refine readCell_prependOut fun v => ?_
  rw [State.prependOut_outAppend]
  rfl

theorem storeInput_prependOut (n : Nat) : storeInput n (s.prependOut o) = outcomePrependOut o (storeInput n s) :=
  takeInput_prependOut fun _ => writeCell_prependOut rfl

theorem execInput_prependOut : execInput (s.prependOut o) = outcomePrependOut o (execInput s) := by
  have hpolicy : (s.prependOut o).policy = s.policy := rfl
  unfold execInput
  rw [hpolicy]
  cases s.policy with
  | wrap => exact outcomePrependOut_ite rfl (storeInput_prependOut _)
  | fault => exact outcomePrependOut_ite rfl (storeInput_prependOut _)
  | zero => exact outcomePrependOut_ite (writeCell_prependOut rfl) (storeInput_prependOut _)
  | unchanged => exact outcomePrependOut_ite rfl (storeInput_prependOut _)

theorem jumpBy_prependOut (c : Byte) : jumpBy c (s.prependOut o) = outcomePrependOut o (jumpBy c s) := by
  refine readCell_prependOut fun v => ?_
  have hresolve : resolve c v (s.prependOut o).ip (s.prependOut o).prog = resolve c v s.ip s.prog := rfl
  rw [hresolve]
  cases resolve c v s.ip s.prog with
  | none => rfl
  | some q => rfl

end

theorem exec_prependOut (i : Instr) (o : List Byte) (s : State) :
    exec i (s.prependOut o) = outcomePrependOut o (exec i s) := by
  cases i with
  | add => exact addToCell_prependOut 1
  | subtract => exact addToCell_prependOut 255
  | moveRight => rfl
  | moveLeft => rfl
  | output => exact execOutput_prependOut
  | input => exact execInput_prependOut
  | openBracket => exact jumpBy_prependOut openBracketByte
  | closeBracket => exact jumpBy_prependOut closeBracketByte

theorem step_prependOut (o : List Byte) (s : State) : step (s.prependOut o) = outcomePrependOut o (step s) := by
  have hstatus : (s.prependOut o).status = s.status := rfl
  have hfetch : fetch (s.prependOut o) = fetch s := rfl
  unfold step
  rw [hstatus, hfetch]
  cases s.status with
  | halted => rfl
  | faulted => rfl
  | running =>
    cases fetch s with
    | endOfProgram => rfl
    | illegal b => rfl
    | instr i => exact exec_prependOut i o s

theorem outcomePrependOut_next {o : List Byte} {r : Result} {t : State} (h : outcomePrependOut o r = .next t) :
    ∃ u, r = .next u ∧ t = u.prependOut o := by
  cases r with
  | next u => cases h; exact ⟨u, rfl, rfl⟩
  | fault f => cases h
  | refused x => cases h

/-- Every state is the one with an empty OUT, with its bytes in front. -/
theorem State.prependOut_empty (s : State) (o : List Byte) :
    ({ s with out := [] } : State).prependOut o = { s with out := o } := by
  simp [State.prependOut]

end Sys2Proof.Machine

open Sys2Proof Sys2Proof.Machine

/-- Settles O40: both steps are the step from the empty OUT with other bytes in front, and what that step leaves in
OUT is what each of them appends. -/
theorem noInstructionReadsOut : Obligations.NoInstructionReadsOut := by
  intro s t o h
  have hstep (p : List Byte) : step { s with out := p } = outcomePrependOut p (step { s with out := [] }) := by
    rw [← s.prependOut_empty p, step_prependOut]
  obtain ⟨u, hu, rfl⟩ := outcomePrependOut_next ((hstep s.out).symm.trans h)
  refine ⟨u.out, rfl, ?_⟩
  rw [hstep o, hu]
  rfl
end

section
/-! The three branches of a step in Running (R51), each under what the head of the step finds, and that a state
without a step is kept by every run (R59). -/

namespace Sys2Proof.Machine

section
variable {s : State} (hrun : s.status = .running)
include hrun

theorem step_of_endOfProgram (h : fetch s = .endOfProgram) : step s = .next s.halt := by
  simp [step, hrun, h]

theorem step_of_illegal {b : Byte} (h : fetch s = .illegal b) :
    step s = .next (s.raise (.invalidInstruction b s.ip)) := by
  simp [step, hrun, h]

theorem step_of_instr {i : Instr} (h : fetch s = .instr i) : step s = exec i s := by
  simp [step, hrun, h]

end

theorem step_ne_next_of_not_running {s : State} (h : s.status ≠ .running) (t : State) : step s ≠ .next t :=
  fun hstep => h (step_next hstep).1

theorem runFor_of_no_next {s : State} (h : ∀ t, step s ≠ .next t) (n : Nat) : runFor n s = s := by
  cases n with
  | zero => rfl
  | succ n =>
    cases hstep : step s with
    | next t => exact absurd hstep (h t)
    | fault f => simp [runFor, hstep]
    | refused r => simp [runFor, hstep]

theorem decode_eq_invalidInstruction {b : Byte} (h : ∀ i, decode b ≠ .valid i) :
    decode b = .invalidInstruction b := by
  cases hb : decode b with
  | valid i => exact absurd hb (h i)
  | invalidInstruction c => rw [decode_invalid_byte hb]

end Sys2Proof.Machine

open Sys2Proof Sys2Proof.Machine

/-- Settles O5: the byte at `IP` makes the head of the step find its instruction. -/
theorem stepRunsTheDecodedInstruction : Obligations.StepRunsTheDecodedInstruction :=
  fun _ b _ hrun hb hi _ => step_of_instr hrun (fetch_instr.mpr ⟨b, hb, hi⟩)

/-- Settles O6: the placed byte stands at `IP`, and placing it leaves the run in Running. -/
theorem placedWordRunsNext : Obligations.PlacedWordRunsNext := by
  intro s w i hi
  have hread := progRead_progPlace s.prog s.ip (BitVec.ofNat 8 (w % 2 ^ 8))
  have hfetch : fetch (s.withFetchWord 8 w) = .instr i := fetch_instr.mpr ⟨_, hread, decodeTableWord_some hi⟩
  exact step_of_instr (s.placeAtIp_status _) hfetch

/-- Settles O7: at or past `PROG_LEN` the head of the step finds the end of the program. -/
theorem haltCheckWritesOnlyStatus : Obligations.HaltCheckWritesOnlyStatus :=
  fun _ hrun hend => step_of_endOfProgram hrun (fetch_endOfProgram.mpr hend)

/-- Settles O8: a step leaves only Running, and a run stops where there is no step. -/
theorem terminalStatesNeverChange : Obligations.TerminalStatesNeverChange := by
  intro s hend
  have hnot : s.status ≠ .running := by rcases hend with h | h <;> simp [h]
  have hstep := step_ne_next_of_not_running hnot
  exact ⟨hstep, runFor_of_no_next hstep⟩

/-- Settles O9: the decoder rejects the byte by name, and raising writes STATUS and FAULT only. -/
theorem illegalByteFaultsWithoutEffect : Obligations.IllegalByteFaultsWithoutEffect := by
  intro s b hrun hb hinvalid
  have hfetch : fetch s = .illegal b := fetch_illegal.mpr ⟨hb, decode_eq_invalidInstruction hinvalid⟩
  exact ⟨_, step_of_illegal hrun hfetch, rfl, rfl, rfl, rfl, rfl, rfl⟩

/-- Settles O36: halting and raising answer a state, and the stops of an instruction need `DP` or `IC` out of the range
the invariants give. -/
theorem runningStateHasASuccessor : Obligations.RunningStateHasASuccessor := by
  intro s hinv hrun
  obtain ⟨-, hdp, -, ⟨hic, -, -⟩, -, -, -⟩ := hinv
  cases hf : fetch s with
  | endOfProgram => exact ⟨_, step_of_endOfProgram hrun hf⟩
  | illegal b => exact ⟨_, step_of_illegal hrun hf⟩
  | instr i =>
    obtain ⟨hrefused, hfault⟩ := exec_stopsOnly i s
    rw [step_of_instr hrun hf]
    cases he : exec i s with
    | next t => exact ⟨t, rfl⟩
    | fault f =>
      obtain ⟨-, hcell⟩ | ⟨-, -, hwrap, hne, hbyte⟩ := hfault f he
      · exact absurd hdp hcell.not_gt
      · exact absurd (hic hwrap hne) hbyte.not_gt
    | refused r => exact absurd he (hrefused r)
end

section
/-! A scan answers exactly the first index where the nesting balance is 0 (R75, R76): its running balance is the
balance of the bytes it has read, so each round of the loop tests one index for a zero. -/

namespace Sys2Proof.Machine

/-! ### The forward scan -/

@[simp] theorem forwardBalance_self (prog : List Byte) (p : Nat) : forwardBalance prog p p = 1 := by
  simp [forwardBalance]

/-- Reading the byte at `j + 1` takes the running balance on to the balance at `j + 1`. The running balance is positive
before it, so the natural subtraction does not stop at 0. -/
theorem balanceForward_eq_forwardBalance {prog : List Byte} {p j bal : Nat} {b : Byte} (hpj : p ≤ j)
    (hb : prog[j + 1]? = some b) (hbal : (bal : Int) = forwardBalance prog p j) (hpos : 0 < bal) :
    (balanceForward b bal : Int) = forwardBalance prog p (j + 1) := by
  have hread : (prog.take (j + 1 + 1)).drop (p + 1) = (prog.take (j + 1)).drop (p + 1) ++ [b] := by
    obtain ⟨hlt, -⟩ := List.getElem?_eq_some_iff.mp hb
    rw [List.take_add_one, hb, Option.toList_some, List.drop_append_of_le_length]
    rw [List.length_take]
    omega
  unfold forwardBalance at hbal ⊢
  rw [hread]
  by_cases ho : b = openBracketByte
  · simp only [ho, balanceForward_open, List.count_append, List.count_cons_self,
      List.count_cons_of_ne openBracketByte_ne_close, List.count_nil]
    omega
  by_cases hc : b = closeBracketByte
  · simp only [hc, balanceForward_close, List.count_append, List.count_cons_self,
      List.count_cons_of_ne closeBracketByte_ne_open, List.count_nil]
    omega
  simp [balanceForward_other ho hc, ho, hc, hbal]

/-- The loop reads from `j + 1` on and stops at the first zero after `j`. -/
theorem scanForwardFrom_eq_some_iff {prog rest : List Byte} {p j bal q : Nat} (hrest : prog.drop (j + 1) = rest)
    (hpj : p ≤ j) (hbal : (bal : Int) = forwardBalance prog p j) (hpos : 0 < bal) :
    scanForwardFrom rest (j + 1) bal = some q ↔
      j < q ∧ q < prog.length ∧ forwardBalance prog p q = 0 ∧
        ∀ k, j < k → k < q → forwardBalance prog p k ≠ 0 := by
  induction rest generalizing j bal with
  | nil =>
    have hlen : prog.length ≤ j + 1 := List.drop_eq_nil_iff.mp hrest
    simp only [scanForwardFrom_nil, reduceCtorEq, false_iff]
    omega
  | cons b rest ih =>
    have hb : prog[j + 1]? = some b := by rw [← List.head?_drop, hrest, List.head?_cons]
    have hrest' : prog.drop (j + 1 + 1) = rest := by rw [← List.tail_drop, hrest, List.tail_cons]
    obtain ⟨hlt, -⟩ := List.getElem?_eq_some_iff.mp hb
    have hnext := balanceForward_eq_forwardBalance hpj hb hbal hpos
    rw [scanForwardFrom_cons]
    split
    next hzero =>
      rw [hzero] at hnext
      constructor
      · intro h
        cases h
        exact ⟨Nat.lt_succ_self _, hlt, hnext.symm, fun k _ _ => by omega⟩
      · rintro ⟨hjq, -, -, hfirst⟩
        have hle : q ≤ j + 1 := le_of_not_gt fun hgt => hfirst _ (Nat.lt_succ_self _) hgt hnext.symm
        rw [le_antisymm hle hjq]
    next hne =>
      have hne' : forwardBalance prog p (j + 1) ≠ 0 := by omega
      rw [ih hrest' (by omega) hnext (by omega)]
      constructor
      · rintro ⟨hjq, hq, hz, hfirst⟩
        refine ⟨by omega, hq, hz, fun k hjk hkq => ?_⟩
        obtain rfl | hk := Nat.eq_or_lt_of_le hjk
        · exact hne'
        · exact hfirst k hk hkq
      · rintro ⟨hjq, hq, hz, hfirst⟩
        have hqne : q ≠ j + 1 := fun e => hne' (e ▸ hz)
        exact ⟨by omega, hq, hz, fun k hjk => hfirst k (by omega)⟩

theorem scanForward_eq_some_iff {prog : List Byte} {p q : Nat} :
    scanForward prog p = some q ↔ FirstZeroForward prog p q :=
  scanForwardFrom_eq_some_iff rfl le_rfl (by simp) Nat.one_pos

/-! ### The backward scan -/

@[simp] theorem backwardBalance_self (prog : List Byte) (p : Nat) : backwardBalance prog p p = 1 := by
  simp [backwardBalance]

/-- Reading the byte at `j` takes the running balance on to the balance at `j`, the mirror of
`balanceForward_eq_forwardBalance`. -/
theorem balanceBackward_eq_backwardBalance {prog : List Byte} {p j bal : Nat} {b : Byte} (hjp : j < p)
    (hb : prog[j]? = some b) (hbal : (bal : Int) = backwardBalance prog p (j + 1)) (hpos : 0 < bal) :
    (balanceBackward b bal : Int) = backwardBalance prog p j := by
  have hread : (prog.take p).drop j = b :: (prog.take p).drop (j + 1) := by
    have hj : (prog.take p)[j]? = some b := by rw [List.getElem?_take_of_lt hjp, hb]
    rw [List.drop_eq_getElem?_toList_append, hj]
    rfl
  unfold backwardBalance at hbal ⊢
  rw [hread]
  by_cases ho : b = openBracketByte
  · simp only [ho, balanceBackward_open, List.count_cons_self,
      List.count_cons_of_ne openBracketByte_ne_close]
    omega
  by_cases hc : b = closeBracketByte
  · simp only [hc, balanceBackward_close, List.count_cons_self,
      List.count_cons_of_ne closeBracketByte_ne_open]
    omega
  simp [balanceBackward_other ho hc, ho, hc, hbal]

/-- The loop reads from `j - 1` down, all inside the program, and stops at the first zero before `j`. -/
theorem scanBackwardFrom_eq_some_iff {prog : List Byte} {p j bal q : Nat} (hjp : j ≤ p)
    (hbal : (bal : Int) = backwardBalance prog p j) (hpos : 0 < bal) :
    scanBackwardFrom prog j bal = some q ↔
      j ≤ prog.length ∧ q < j ∧ backwardBalance prog p q = 0 ∧
        ∀ k, q < k → k < j → backwardBalance prog p k ≠ 0 := by
  induction j generalizing bal with
  | zero => simp
  | succ j ih =>
    cases hb : progRead prog j with
    | none =>
      have hlen : prog.length ≤ j := List.getElem?_eq_none_iff.mp hb
      simp only [scanBackwardFrom, hb, reduceCtorEq, false_iff]
      omega
    | some b =>
      obtain ⟨hlt, -⟩ := List.getElem?_eq_some_iff.mp hb
      have hnext := balanceBackward_eq_backwardBalance hjp hb hbal hpos
      rw [scanBackwardFrom_succ hb]
      split
      next hzero =>
        rw [hzero] at hnext
        constructor
        · intro h
          cases h
          exact ⟨hlt, Nat.lt_succ_self _, hnext.symm, fun k _ _ => by omega⟩
        · rintro ⟨-, hqj, -, hfirst⟩
          have hle : j ≤ q := le_of_not_gt fun hgt => hfirst _ hgt (Nat.lt_succ_self _) hnext.symm
          rw [le_antisymm hle (Nat.le_of_lt_succ hqj)]
      next hne =>
        have hne' : backwardBalance prog p j ≠ 0 := by omega
        rw [ih (by omega) hnext (by omega)]
        constructor
        · rintro ⟨-, hqj, hz, hfirst⟩
          refine ⟨hlt, by omega, hz, fun k hqk hkj => ?_⟩
          obtain rfl | hk := Nat.eq_or_lt_of_le (Nat.le_of_lt_succ hkj)
          · exact hne'
          · exact hfirst k hqk hk
        · rintro ⟨-, hqj, hz, hfirst⟩
          have hqne : q ≠ j := fun e => hne' (e ▸ hz)
          exact ⟨hlt.le, by omega, hz, fun k hqk hkj => hfirst k hqk (by omega)⟩

/-- From beyond the end of the program a backward scan finds nothing. -/
theorem scanBackward_eq_some_iff {prog : List Byte} {p q : Nat} :
    scanBackward prog p = some q ↔ p ≤ prog.length ∧ FirstZeroBackward prog p q :=
  scanBackwardFrom_eq_some_iff le_rfl (by simp) Nat.one_pos

end Sys2Proof.Machine
end

section
/-! Where a dispatch leaves `IP` (R56): one past the resolver's answer for the instruction's own byte, whatever the
instruction is, since the resolver answers the same index for every byte that does not jump (R74). -/

namespace Sys2Proof.Machine

@[simp] theorem encode_openBracket : encode .openBracket = openBracketByte := rfl
@[simp] theorem encode_closeBracket : encode .closeBracket = closeBracketByte := rfl

theorem jumpTaken_encode {i : Instr} {v : Byte} :
    jumpTaken (encode i) v = true ↔ (i = .openBracket ∧ v = 0) ∨ (i = .closeBracket ∧ v ≠ 0) := by
  cases i with
  | openBracket | closeBracket => simp
  | add | subtract | moveRight | moveLeft | output | input =>
    simp [jumpTaken, encode, openBracketByte, closeBracketByte]

theorem execInput_ip {s t : State} (h : execInput s = .next t) (ht : t.status ≠ .faulted) : t.ip = s.ip + 1 := by
  rcases execInput_next h with ⟨-, rfl⟩ | ⟨b, n, -, -, -, rfl⟩ | ⟨-, -, -, rfl⟩ | ⟨-, -, rfl⟩
  · exact absurd (s.raise_status _) ht
  · rfl
  · rfl
  · rfl

theorem jumpBy_ip {c : Byte} {s t : State} (h : jumpBy c s = .next t) (ht : t.status ≠ .faulted) :
    ∃ q, resolve c (s.cell s.dp) s.ip s.prog = some q ∧ t.ip = q + 1 := by
  obtain ⟨-, ⟨q, hq, rfl⟩ | ⟨-, rfl⟩⟩ := jumpBy_next h
  · exact ⟨q, hq, rfl⟩
  · exact absurd (s.raise_status _) ht

theorem exec_ip {i : Instr} {s t : State} (h : exec i s = .next t) (ht : t.status ≠ .faulted) :
    ∃ q, resolve (encode i) (s.cell s.dp) s.ip s.prog = some q ∧ t.ip = q + 1 := by
  cases i with
  | add | subtract =>
    obtain ⟨-, rfl⟩ := addToCell_next h
    exact ⟨s.ip, rfl, rfl⟩
  | moveRight | moveLeft =>
    obtain rfl := movePointer_next h
    exact ⟨s.ip, rfl, rfl⟩
  | output =>
    obtain ⟨-, rfl⟩ := execOutput_next h
    exact ⟨s.ip, rfl, rfl⟩
  | input => exact ⟨s.ip, rfl, execInput_ip h ht⟩
  | openBracket | closeBracket => exact jumpBy_ip h ht

end Sys2Proof.Machine

open Sys2Proof Sys2Proof.Machine

/-- Settles O10: each clause is what the resolver answers in its case, and its answers lie inside the program. -/
theorem pointerAdvancesByOneAfterDispatch : Obligations.PointerAdvancesByOneAfterDispatch := by
  intro i s t _ he ht
  obtain ⟨q, hq, hip⟩ := exec_ip he ht
  refine ⟨fun hopen hclose => ?_, fun hi hcell => ⟨q, ?_, hip⟩, fun hi hcell => ⟨q, ?_, hip⟩, fun hlt => ?_⟩
  · have hnot : jumpTaken (encode i) (s.cell s.dp) = false :=
      Bool.eq_false_iff.mpr fun h => (jumpTaken_encode.mp h).elim hopen hclose
    rw [resolve_not_taken hnot] at hq
    rw [hip, Option.some.inj hq]
  · subst hi
    rw [encode_openBracket, hcell, resolve_open_taken] at hq
    exact scanForward_eq_some_iff.mp hq
  · subst hi
    rw [encode_closeBracket, resolve_close_taken hcell] at hq
    exact (scanBackward_eq_some_iff.mp hq).2
  · rw [hip]
    exact resolve_lt hlt hq
end

section
/-! What `+` and `-` do to the current cell (R62, R63): one read-modify-write, with the frame of `addToCell_frame`. -/

namespace Sys2Proof.Machine

/-- The canonical tape is what makes the stored byte the one that is read back. -/
theorem addToCell_completes (d : Byte) {s : State} (hdp : s.dp < s.tapeLen) (hwf : Memory.wf s.tape = true) :
    ∃ t, addToCell d s = .next t ∧
      (t.cell s.dp).toNat = ((s.cell s.dp).toNat + d.toNat) % 256 ∧ s.SameTapeBut t s.dp ∧
      t.ip = s.ip + 1 ∧ t.dp = s.dp ∧ t.ic = s.ic ∧ t.out = s.out ∧ s.SameRun t := by
  have hnext := addToCell_of_lt (d := d) hdp
  obtain ⟨htape, hframe⟩ := addToCell_frame hnext
  refine ⟨_, hnext, ?_, htape, rfl, hframe⟩
  rw [State.advance_cell, State.setCell_cell_same hwf, BitVec.toNat_add]

end Sys2Proof.Machine

open Sys2Proof Sys2Proof.Machine

/-- Settles O11: `+` is the shared read-modify-write with the byte 1. -/
theorem addIncrementsTheCurrentCell : Obligations.AddIncrementsTheCurrentCell :=
  fun _ hdp hwf => addToCell_completes 1 hdp hwf

/-- Settles O12: `-` is the shared read-modify-write with the byte 255, which is -1 modulo 256. -/
theorem subtractDecrementsTheCurrentCell : Obligations.SubtractDecrementsTheCurrentCell := by
  intro s hdp hwf
  obtain ⟨t, hnext, hcell, hframe⟩ := addToCell_completes 255 hdp hwf
  have hnat : (t.cell s.dp).toNat = ((s.cell s.dp).toNat + 255) % 256 := hcell
  have hint : ((t.cell s.dp).toNat : Int) = ((s.cell s.dp).toNat - 1) % 256 := by omega
  exact ⟨t, hnext, hnat, hint, hframe⟩
end

section
/-! What the two moves do to the data pointer (R64, R65): the circular neighbour on each side, and one pointer move with
the frame of `movePointer_frame`. -/

namespace Sys2Proof.Machine

/-! ### The circular neighbours of a cell -/

theorem indexRight_of_lt {n p : Nat} (h : p + 1 < n) : indexRight n p = p + 1 := Nat.mod_eq_of_lt h

theorem indexRight_of_last {n p : Nat} (h : p + 1 = n) : indexRight n p = 0 := by
  rw [indexRight, h, Nat.mod_self]

/-- On a tape with a cell the natural subtraction does not stop at 0, so it is the subtraction of R65. -/
theorem indexLeft_cast {n : Nat} (hn : 1 ≤ n) (p : Nat) : (indexLeft n p : Int) = ((p : Int) - 1 + n) % n := by
  have hsum : ((p + n - 1 : Nat) : Int) = (p : Int) - 1 + n := by omega
  rw [indexLeft, Int.natCast_emod, hsum]

theorem indexLeft_zero {n : Nat} (hn : 1 ≤ n) : indexLeft n 0 = n - 1 := by
  rw [indexLeft, Nat.zero_add, Nat.mod_eq_of_lt (Nat.sub_one_lt_of_lt hn)]

/-- Adding the tape length before the subtraction makes one full turn, which the remainder drops. -/
theorem indexLeft_of_pos {n p : Nat} (hpos : 0 < p) (h : p < n) : indexLeft n p = p - 1 := by
  rw [indexLeft, Nat.sub_add_comm hpos, Nat.add_mod_right, Nat.mod_eq_of_lt ((Nat.sub_le p 1).trans_lt h)]

/-! ### The move -/

theorem movePointer_completes (n : Nat) (s : State) :
    ∃ t, movePointer n s = .next t ∧ t.dp = n ∧ s.SameTape t ∧
      t.ip = s.ip + 1 ∧ t.ic = s.ic ∧ t.out = s.out ∧ s.SameRun t := by
  have hnext : movePointer n s = .next (s.setDp n).advance := rfl
  obtain ⟨htape, hframe⟩ := movePointer_frame hnext
  exact ⟨_, hnext, rfl, htape, rfl, hframe⟩

end Sys2Proof.Machine

open Sys2Proof Sys2Proof.Machine

/-- Settles O13: the move right is the shared move to the right neighbour of `DP`. -/
theorem moveRightIsCircular : Obligations.MoveRightIsCircular := by
  intro s _
  obtain ⟨t, hnext, hdp, hframe⟩ := movePointer_completes (indexRight s.tapeLen s.dp) s
  exact ⟨t, hnext, hdp, fun h => hdp.trans (indexRight_of_lt h), fun h => hdp.trans (indexRight_of_last h), hframe⟩

/-- Settles O14: the move left is the shared move to the left neighbour of `DP`. -/
theorem moveLeftIsCircular : Obligations.MoveLeftIsCircular := by
  intro s hlen
  obtain ⟨t, hnext, hdp, hframe⟩ := movePointer_completes (indexLeft s.tapeLen s.dp) s
  refine ⟨t, hnext, ?_, fun h0 => ?_, fun hpos hlt => ?_, hframe⟩
  · rw [hdp, indexLeft_cast hlen]
  · rw [hdp, h0, indexLeft_zero hlen]
  · rw [hdp, indexLeft_of_pos hpos hlt]
end

section
/-! What `.` does to OUT (R66): it answers whenever the tape has a cell at `DP`, with the frame of
`execOutput_frame`. -/

namespace Sys2Proof.Machine

theorem execOutput_of_lt {s : State} (h : s.dp < s.tapeLen) :
    execOutput s = .next (s.outAppend (s.cell s.dp)).advance :=
  readCell_of_lt h _

end Sys2Proof.Machine

open Sys2Proof Sys2Proof.Machine

/-- Settles O15: the output and the advance are read off the state that `.` answers, the rest is its frame. -/
theorem outputAppendsTheCurrentCell : Obligations.OutputAppendsTheCurrentCell := by
  intro s hdp
  have hnext : exec .output s = .next (s.outAppend (s.cell s.dp)).advance := execOutput_of_lt hdp
  obtain ⟨htape, hframe⟩ := execOutput_frame hnext
  exact ⟨_, hnext, rfl, htape, rfl, hframe⟩
end

section
/-! Balanced code read byte by byte, and the stretch of the program between two brackets (Glossary, R81). -/

namespace Sys2Proof

@[simp] theorem balancedFrom_nil (d : Nat) : balancedFrom d [] = true ↔ d = 0 := by simp [balancedFrom]

@[simp] theorem balancedFrom_open (d : Nat) (l : List Byte) :
    balancedFrom d (openBracketByte :: l) = balancedFrom (d + 1) l := by
  cases d <;> simp [balancedFrom]

@[simp] theorem balancedFrom_zero_close (l : List Byte) : balancedFrom 0 (closeBracketByte :: l) = false := by
  simp [balancedFrom]

@[simp] theorem balancedFrom_succ_close (d : Nat) (l : List Byte) :
    balancedFrom (d + 1) (closeBracketByte :: l) = balancedFrom d l := by
  simp [balancedFrom]

theorem balancedFrom_other {b : Byte} (ho : b ≠ openBracketByte) (hc : b ≠ closeBracketByte) (d : Nat)
    (l : List Byte) : balancedFrom d (b :: l) = balancedFrom d l := by
  cases d <;> simp [balancedFrom, ho, hc]

/-- The three kinds of byte that a scan, a match table and the nesting depth tell apart (R78). -/
theorem bracket_cases (b : Byte) :
    b = openBracketByte ∨ b = closeBracketByte ∨ b ≠ openBracketByte ∧ b ≠ closeBracketByte := by
  tauto

/-- The rest of a balanced program is balanced from the depth at which it begins. -/
theorem exists_balancedFrom_of_append {d : Nat} {l l' : List Byte} (h : balancedFrom d (l ++ l') = true) :
    ∃ n, balancedFrom n l' = true := by
  induction l generalizing d with
  | nil => exact ⟨d, h⟩
  | cons b l ih =>
    rw [List.cons_append] at h
    obtain rfl | rfl | ⟨ho, hc⟩ := bracket_cases b
    · exact ih (balancedFrom_open d _ ▸ h)
    · cases d with
      | zero => simp at h
      | succ d => exact ih (balancedFrom_succ_close d _ ▸ h)
    · exact ih (balancedFrom_other ho hc d _ ▸ h)

theorem matchingPair_iff {prog : List Byte} {p q : Nat} :
    matchingPair prog p q = true ↔
      p < q ∧ prog[p]? = some openBracketByte ∧ prog[q]? = some closeBracketByte ∧
        balanced ((prog.take q).drop (p + 1)) = true := by
  simp [matchingPair, and_assoc]

theorem getElem?_and_drop_of_drop_eq_cons {l rest : List Byte} {j : Nat} {b : Byte} (h : l.drop j = b :: rest) :
    l[j]? = some b ∧ l.drop (j + 1) = rest := by
  rw [← List.head?_drop, ← List.tail_drop, h]
  exact ⟨rfl, rfl⟩

theorem drop_eq_cons_of_getElem? {l : List Byte} {j : Nat} {b : Byte} (h : l[j]? = some b) :
    l.drop j = b :: l.drop (j + 1) := by
  rw [List.drop_eq_getElem?_toList_append, h]
  rfl

/-- The stretch from `i` up to `j`, lengthened by the byte at `j`. -/
theorem drop_take_succ {prog : List Byte} {i j : Nat} {b : Byte} (hij : i ≤ j) (hb : prog[j]? = some b) :
    (prog.take (j + 1)).drop i = (prog.take j).drop i ++ [b] := by
  obtain ⟨hlt, -⟩ := List.getElem?_eq_some_iff.mp hb
  rw [List.take_add_one, hb, Option.toList_some, List.drop_append_of_le_length]
  rw [List.length_take]
  omega

end Sys2Proof
end

section
/-! The scans and the nesting depth (R75, R76, R81): a scan answers `q` exactly when its bracket stands at `q` and what
lies strictly between is balanced. -/

namespace Sys2Proof.Machine

/-! ### The forward scan -/

theorem scanForwardFrom_ge {rest : List Byte} {j bal q : Nat} (h : scanForwardFrom rest j bal = some q) : j ≤ q := by
  induction rest generalizing j bal with
  | nil => cases h
  | cons b rest ih =>
    rw [scanForwardFrom_cons] at h
    split at h
    · cases h
      exact le_rfl
    · exact (Nat.le_succ j).trans (ih h)

/-- A scan with balance `d + 1` stops at the `]` that follows code balanced from depth `d`. -/
theorem scanForwardFrom_eq_some_iff_balancedFrom {rest : List Byte} {j d k : Nat} :
    scanForwardFrom rest j (d + 1) = some (j + k) ↔
      rest[k]? = some closeBracketByte ∧ balancedFrom d (rest.take k) = true := by
  induction rest generalizing j d k with
  | nil => simp
  | cons b rest ih =>
    rw [scanForwardFrom_cons]
    cases k with
    | zero =>
      have hlater (bal : Nat) : scanForwardFrom rest (j + 1) bal ≠ some j := fun h => by
        have := scanForwardFrom_ge h
        omega
      obtain rfl | rfl | ⟨ho, hc⟩ := bracket_cases b
      · simp [hlater]
      · cases d <;> simp [hlater]
      · simp [balanceForward_other ho hc, hlater, hc]
    | succ k =>
      have hnext : j + (k + 1) = j + 1 + k := by omega
      have hne : j ≠ j + 1 + k := by omega
      rw [hnext, List.getElem?_cons_succ, List.take_succ_cons]
      obtain rfl | rfl | ⟨ho, hc⟩ := bracket_cases b
      · simp [ih]
      · cases d with
        | zero => simp [hne]
        | succ d => simp [ih]
      · simp [balanceForward_other ho hc, balancedFrom_other ho hc, ih]

theorem scanForward_eq_some_iff_balanced {prog : List Byte} {p q : Nat} :
    scanForward prog p = some q ↔
      p < q ∧ prog[q]? = some closeBracketByte ∧ balanced ((prog.take q).drop (p + 1)) = true := by
  constructor
  · intro h
    obtain ⟨k, rfl⟩ := Nat.exists_eq_add_of_le (scanForwardFrom_ge h)
    obtain ⟨hclose, hbal⟩ := scanForwardFrom_eq_some_iff_balancedFrom.mp h
    rw [List.getElem?_drop] at hclose
    refine ⟨by omega, hclose, ?_⟩
    rwa [List.drop_take, Nat.add_sub_cancel_left]
  · rintro ⟨hpq, hclose, hbal⟩
    obtain ⟨k, rfl⟩ := Nat.exists_eq_add_of_le (Nat.succ_le_of_lt hpq)
    rw [List.drop_take, Nat.add_sub_cancel_left] at hbal
    exact scanForwardFrom_eq_some_iff_balancedFrom.mpr ⟨by rw [List.getElem?_drop]; exact hclose, hbal⟩

/-! ### The backward scan -/

/-- A backward scan through code balanced from depth `d` comes out of it with its balance raised by `d`. -/
theorem scanBackwardFrom_of_balancedFrom {prog seg : List Byte} {j q d e : Nat} (hseg : (prog.take q).drop j = seg)
    (hjq : j ≤ q) (hq : q ≤ prog.length) (hbal : balancedFrom d seg = true) :
    scanBackwardFrom prog q (e + 1) = scanBackwardFrom prog j (e + d + 1) := by
  induction seg generalizing j d with
  | nil =>
    have hlen : q ≤ j := by simpa [hq] using hseg
    obtain rfl := (balancedFrom_nil d).mp hbal
    rw [le_antisymm hjq hlen, Nat.add_zero]
  | cons b seg ih =>
    obtain ⟨hread, hseg'⟩ := getElem?_and_drop_of_drop_eq_cons hseg
    have hjq' : j < q := by
      have := (List.getElem?_eq_some_iff.mp hread).1
      rw [List.length_take] at this
      omega
    have hb : progRead prog j = some b := by rwa [List.getElem?_take_of_lt hjq'] at hread
    obtain rfl | rfl | ⟨ho, hc⟩ := bracket_cases b
    · rw [balancedFrom_open] at hbal
      rw [ih hseg' hjq' hbal, scanBackwardFrom_succ hb]
      simp [← Nat.add_assoc]
    · cases d with
      | zero => simp at hbal
      | succ d =>
        rw [balancedFrom_succ_close] at hbal
        rw [ih hseg' hjq' hbal, scanBackwardFrom_succ hb]
        simp [← Nat.add_assoc]
    · rw [balancedFrom_other ho hc] at hbal
      rw [ih hseg' hjq' hbal, scanBackwardFrom_succ hb]
      simp [balanceBackward_other ho hc]

/-- What a scan with balance `d + 1` has passed, before a rest that is balanced from depth `d`, completes to balanced
code after the `[` that it finds. -/
theorem scanBackwardFrom_balanced {prog rest : List Byte} {j d p : Nat} (h : scanBackwardFrom prog j (d + 1) = some p)
    (hrest : balancedFrom d rest = true) :
    p < j ∧ prog[p]? = some openBracketByte ∧ balanced ((prog.take j).drop (p + 1) ++ rest) = true := by
  induction j generalizing d rest with
  | zero => cases h
  | succ j ih =>
    cases hb : progRead prog j with
    | none => simp [scanBackwardFrom, hb] at h
    | some b =>
      rw [scanBackwardFrom_succ hb] at h
      have hlater {d' : Nat} (h' : scanBackwardFrom prog j (d' + 1) = some p)
          (hrest' : balancedFrom d' (b :: rest) = true) : p < j + 1 ∧ prog[p]? = some openBracketByte ∧
            balanced ((prog.take (j + 1)).drop (p + 1) ++ rest) = true := by
        obtain ⟨hpj, hopen, hbal⟩ := ih h' hrest'
        refine ⟨by omega, hopen, ?_⟩
        rw [drop_take_succ hpj hb, List.append_assoc]
        exact hbal
      obtain rfl | rfl | ⟨ho, hc⟩ := bracket_cases b
      · cases d with
        | zero =>
          obtain rfl : j = p := by simpa using h
          refine ⟨Nat.lt_succ_self j, hb, ?_⟩
          rw [List.drop_eq_nil_of_le (List.length_take_le _ _)]
          exact hrest
        | succ d => exact hlater (by simpa using h) (by simpa using hrest)
      · exact hlater (by simpa using h) (by simpa using hrest)
      · exact hlater (by simpa [balanceBackward_other ho hc] using h) (by simpa [balancedFrom_other ho hc] using hrest)

theorem scanBackward_eq_some_iff_balanced {prog : List Byte} {p q : Nat} (hq : q ≤ prog.length) :
    scanBackward prog q = some p ↔
      p < q ∧ prog[p]? = some openBracketByte ∧ balanced ((prog.take q).drop (p + 1)) = true := by
  constructor
  · intro h
    have := scanBackwardFrom_balanced (d := 0) h ((balancedFrom_nil 0).mpr rfl)
    rwa [List.append_nil] at this
  · rintro ⟨hpq, hopen, hbal⟩
    have hskip : scanBackwardFrom prog q (0 + 1) = scanBackwardFrom prog (p + 1) (0 + 0 + 1) :=
      scanBackwardFrom_of_balancedFrom rfl hpq hq hbal
    have hstop : scanBackwardFrom prog (p + 1) (0 + 0 + 1) = some p := by
      simp [scanBackwardFrom_succ hopen]
    exact hskip.trans hstop

/-! ### Matching brackets -/

theorem matchingPair_iff_scanForward {prog : List Byte} {p q : Nat} (hopen : prog[p]? = some openBracketByte) :
    matchingPair prog p q = true ↔ scanForward prog p = some q := by
  rw [matchingPair_iff, scanForward_eq_some_iff_balanced, and_iff_right hopen]

theorem matchingPair_iff_scanBackward {prog : List Byte} {p q : Nat} (hclose : prog[q]? = some closeBracketByte) :
    matchingPair prog p q = true ↔ scanBackward prog q = some p := by
  have hq := (List.getElem?_eq_some_iff.mp hclose).1
  rw [matchingPair_iff, scanBackward_eq_some_iff_balanced hq.le, and_iff_right hclose]

end Sys2Proof.Machine

open Sys2Proof Sys2Proof.Machine

/-- Settles O22: a scan answers the first zero of the balance, where the `]` behind the balanced code stands. -/
theorem forwardScanStopsAtFirstZeroBalance : Obligations.ForwardScanStopsAtFirstZeroBalance :=
  fun _ _ _ => ⟨scanForward_eq_some_iff, fun h => (scanForward_eq_some_iff_balanced.mp h).2.1⟩

/-- Settles O23: the mirror of O22; a start inside the program or at its end reads no byte outside it. -/
theorem backwardScanStopsAtFirstZeroBalance : Obligations.BackwardScanStopsAtFirstZeroBalance :=
  fun _ _ _ hp => ⟨scanBackward_eq_some_iff.trans (and_iff_right hp),
    fun h => ((scanBackward_eq_some_iff_balanced hp).mp h).2.1⟩

/-- Settles O24: each scan from a bracket of a matching pair answers the other bracket. -/
theorem matchingBracketsResolveToEachOther : Obligations.MatchingBracketsResolveToEachOther := by
  intro prog p q h
  obtain ⟨-, hopen, hclose, -⟩ := matchingPair_iff.mp h
  exact ⟨(matchingPair_iff_scanForward hopen).mp h, (matchingPair_iff_scanBackward hclose).mp h⟩
end

section
/-! In a balanced program no scan from a bracket runs off the program (Glossary, R81). -/

namespace Sys2Proof.Machine

/-- Code balanced from a depth above `d` closes the bracket that a scan with balance `d + 1` looks for. -/
theorem exists_scanForwardFrom_of_balancedFrom {rest : List Byte} {j d n : Nat} (h : balancedFrom n rest = true)
    (hd : d < n) : ∃ q, scanForwardFrom rest j (d + 1) = some q := by
  induction rest generalizing j d n with
  | nil =>
    have := (balancedFrom_nil n).mp h
    omega
  | cons b rest ih =>
    rw [scanForwardFrom_cons]
    obtain rfl | rfl | ⟨ho, hc⟩ := bracket_cases b
    · rw [balancedFrom_open] at h
      exact ih h (Nat.succ_lt_succ hd)
    · obtain ⟨n, rfl⟩ := Nat.exists_eq_add_one_of_ne_zero (Nat.ne_zero_of_lt hd)
      rw [balancedFrom_succ_close] at h
      cases d with
      | zero => exact ⟨j, by simp⟩
      | succ d => simpa using ih h (Nat.lt_of_succ_lt_succ hd)
    · rw [balancedFrom_other ho hc] at h
      simpa [balanceForward_other ho hc] using ih h hd

theorem exists_scanForward_of_balanced {prog : List Byte} {p : Nat} (h : balanced prog = true)
    (hopen : prog[p]? = some openBracketByte) : ∃ q, scanForward prog p = some q := by
  rw [← List.take_append_drop p prog] at h
  obtain ⟨n, hn⟩ := exists_balancedFrom_of_append h
  rw [drop_eq_cons_of_getElem? hopen, balancedFrom_open] at hn
  exact exists_scanForwardFrom_of_balancedFrom hn n.succ_pos

/-- If what follows in a balanced program needs a depth above `d`, then a backward scan with balance `d + 1` finds the
bracket that opens it. -/
theorem exists_scanBackwardFrom_of_balanced {prog rest : List Byte} {j d : Nat} (hj : j ≤ prog.length)
    (h : balanced (prog.take j ++ rest) = true) (hrest : ∀ n, balancedFrom n rest = true → d < n) :
    ∃ p, scanBackwardFrom prog j (d + 1) = some p := by
  induction j generalizing d rest with
  | zero => exact absurd (hrest 0 h) (Nat.not_lt_zero d)
  | succ j ih =>
    have hb : prog[j]? = some prog[j] := List.getElem?_eq_getElem hj
    rw [scanBackwardFrom_succ hb]
    rw [List.take_add_one, hb, Option.toList_some, List.append_assoc, List.singleton_append] at h
    generalize prog[j] = b at *
    obtain rfl | rfl | ⟨ho, hc⟩ := bracket_cases b
    · cases d with
      | zero => exact ⟨j, by simp⟩
      | succ d =>
        simpa using ih (Nat.le_of_lt hj) h fun n hn => by
          rw [balancedFrom_open] at hn
          exact Nat.lt_of_succ_lt_succ (hrest _ hn)
    · simpa using ih (d := d + 1) (Nat.le_of_lt hj) h fun n hn => by
        cases n with
        | zero => simp at hn
        | succ n =>
          rw [balancedFrom_succ_close] at hn
          exact Nat.succ_lt_succ (hrest _ hn)
    · simpa [balanceBackward_other ho hc] using ih (Nat.le_of_lt hj) h fun n hn => by
        rw [balancedFrom_other ho hc] at hn
        exact hrest _ hn

theorem exists_scanBackward_of_balanced {prog : List Byte} {q : Nat} (h : balanced prog = true)
    (hclose : prog[q]? = some closeBracketByte) : ∃ p, scanBackward prog q = some p := by
  have hq : q ≤ prog.length := (List.getElem?_eq_some_iff.mp hclose).1.le
  rw [← List.take_append_drop q prog, drop_eq_cons_of_getElem? hclose] at h
  refine exists_scanBackwardFrom_of_balanced hq h fun n hn => Nat.pos_of_ne_zero ?_
  rintro rfl
  simp at hn

end Sys2Proof.Machine

open Sys2Proof Sys2Proof.Machine

/-- Settles O25: the partner of a bracket is the answer of its scan, which a balanced program always has. -/
theorem balancedProgramPairsEveryBracket : Obligations.BalancedProgramPairsEveryBracket := by
  intro prog h
  refine ⟨fun p hopen => ?_, fun q hclose => ?_⟩
  · obtain ⟨q, hq⟩ := exists_scanForward_of_balanced h hopen
    refine ⟨q, (matchingPair_iff_scanForward hopen).mpr hq, fun q' hq' => ?_⟩
    exact Option.some.inj (((matchingPair_iff_scanForward hopen).mp hq').symm.trans hq)
  · obtain ⟨p, hp⟩ := exists_scanBackward_of_balanced h hclose
    refine ⟨p, (matchingPair_iff_scanBackward hclose).mpr hp, fun p' hp' => ?_⟩
    exact Option.some.inj (((matchingPair_iff_scanBackward hclose).mp hp').symm.trans hp)
end

section
/-! The match table (R80): its pairs are the matching pairs of the program, so looking a bracket up in it is scanning
from that bracket. -/

namespace Sys2Proof.Machine

/-! ### The equations of the table -/

@[simp] theorem matchedPairs_nil (j : Nat) (stack : List Nat) : matchedPairs [] j stack = [] := by
  simp [matchedPairs]

@[simp] theorem matchedPairs_open (rest : List Byte) (j : Nat) (stack : List Nat) :
    matchedPairs (openBracketByte :: rest) j stack = matchedPairs rest (j + 1) (j :: stack) := by
  simp [matchedPairs]

@[simp] theorem matchedPairs_close_nil (rest : List Byte) (j : Nat) :
    matchedPairs (closeBracketByte :: rest) j [] = matchedPairs rest (j + 1) [] := by
  simp [matchedPairs]

@[simp] theorem matchedPairs_close_cons (rest : List Byte) (j p : Nat) (stack : List Nat) :
    matchedPairs (closeBracketByte :: rest) j (p :: stack) = (p, j) :: matchedPairs rest (j + 1) stack := by
  simp [matchedPairs]

theorem matchedPairs_other {b : Byte} (ho : b ≠ openBracketByte) (hc : b ≠ closeBracketByte) (rest : List Byte)
    (j : Nat) (stack : List Nat) : matchedPairs (b :: rest) j stack = matchedPairs rest (j + 1) stack := by
  simp [matchedPairs, ho, hc]

/-! ### The stack of the open brackets -/

/-- `stack` holds the brackets open before `j`, innermost first: the `d`-th is what a backward scan from `j` that has
`d` further brackets to pass finds. -/
def IsOpenStack (prog : List Byte) (j : Nat) (stack : List Nat) : Prop :=
  ∀ d, scanBackwardFrom prog j (d + 1) = stack[d]?

theorem isOpenStack_zero (prog : List Byte) : IsOpenStack prog 0 [] := fun _ => rfl

section
variable {prog : List Byte} {j : Nat} {stack : List Nat} (h : IsOpenStack prog j stack)
include h

theorem IsOpenStack.push (hb : progRead prog j = some openBracketByte) : IsOpenStack prog (j + 1) (j :: stack) := by
  intro d
  rw [scanBackwardFrom_succ hb]
  cases d with
  | zero => simp
  | succ d => simp [h d]

theorem IsOpenStack.pop (hb : progRead prog j = some closeBracketByte) : IsOpenStack prog (j + 1) stack.tail := by
  intro d
  rw [scanBackwardFrom_succ hb]
  simp [h (d + 1)]

theorem IsOpenStack.skip {b : Byte} (hb : progRead prog j = some b) (ho : b ≠ openBracketByte)
    (hc : b ≠ closeBracketByte) : IsOpenStack prog (j + 1) stack := by
  intro d
  rw [scanBackwardFrom_succ hb]
  simp [balanceBackward_other ho hc, h d]

end

/-! ### The pairs of the table -/

/-- From index `j` on, the table pairs each `]` with the `[` that its backward scan finds. -/
theorem mem_matchedPairs {prog rest : List Byte} {j p q : Nat} {stack : List Nat} (hrest : prog.drop j = rest)
    (hstack : IsOpenStack prog j stack) :
    (p, q) ∈ matchedPairs rest j stack ↔
      j ≤ q ∧ prog[q]? = some closeBracketByte ∧ scanBackward prog q = some p := by
  induction rest generalizing j stack with
  | nil =>
    have hlen : prog.length ≤ j := List.drop_eq_nil_iff.mp hrest
    simp only [matchedPairs_nil, List.not_mem_nil, false_iff]
    rintro ⟨hjq, hclose, -⟩
    have := (List.getElem?_eq_some_iff.mp hclose).1
    omega
  | cons b rest ih =>
    obtain ⟨hb, hrest'⟩ := getElem?_and_drop_of_drop_eq_cons hrest
    have htop : scanBackward prog j = stack[0]? := hstack 0
    have hsplit : (j ≤ q ∧ prog[q]? = some closeBracketByte ∧ scanBackward prog q = some p) ↔
        (q = j ∧ b = closeBracketByte ∧ stack[0]? = some p) ∨
          (j + 1 ≤ q ∧ prog[q]? = some closeBracketByte ∧ scanBackward prog q = some p) := by
      rw [Nat.le_iff_lt_or_eq, or_and_right, or_comm]
      refine or_congr_left ⟨?_, ?_⟩
      · rintro ⟨rfl, hclose, hscan⟩
        exact ⟨rfl, Option.some.inj (hb.symm.trans hclose), htop.symm.trans hscan⟩
      · rintro ⟨rfl, rfl, hscan⟩
        exact ⟨rfl, hb, htop.trans hscan⟩
    rw [hsplit]
    obtain rfl | rfl | ⟨ho, hc⟩ := bracket_cases b
    · simp [ih hrest' (hstack.push hb)]
    · have hlater := ih hrest' (hstack.pop hb)
      cases stack with
      | nil => simpa using hlater
      | cons t stack =>
        rw [List.tail_cons] at hlater
        simp [hlater, and_comm, eq_comm (a := t)]
    · simp [matchedPairs_other ho hc, ih hrest' (hstack.skip hb ho hc), hc]

theorem mem_matchTable {prog : List Byte} {p q : Nat} :
    (p, q) ∈ matchTable prog ↔ matchingPair prog p q = true := by
  refine (mem_matchedPairs (prog.drop_zero) (isOpenStack_zero prog)).trans ?_
  constructor
  · rintro ⟨-, hclose, hscan⟩
    exact (matchingPair_iff_scanBackward hclose).mpr hscan
  · intro h
    obtain ⟨-, -, hclose, -⟩ := matchingPair_iff.mp h
    exact ⟨q.zero_le, hclose, (matchingPair_iff_scanBackward hclose).mp h⟩

/-! ### Looking up a bracket -/

/-- A lookup by `key` answers `r` when `r` is the value of every entry with that key, and `none` only if there is no
such entry. -/
theorem find?_key_map_val {table : List (Nat × Nat)} {key val : Nat × Nat → Nat} {k : Nat} {r : Option Nat}
    (h : ∀ v, (∃ e ∈ table, key e = k ∧ val e = v) ↔ r = some v) :
    (table.find? fun e => key e == k).map val = r := by
  cases hfind : table.find? fun e => key e == k with
  | none =>
    cases r with
    | none => rfl
    | some v =>
      obtain ⟨e, he, hkey, -⟩ := (h v).mpr rfl
      exact absurd (beq_iff_eq.mpr hkey) (List.find?_eq_none.mp hfind e he)
  | some e =>
    have hkey : key e = k := by simpa using List.find?_some hfind
    exact ((h (val e)).mp ⟨e, List.mem_of_find?_eq_some hfind, hkey, rfl⟩).symm

theorem tableForward_matchTable {prog : List Byte} {p : Nat} (hopen : prog[p]? = some openBracketByte) :
    tableForward (matchTable prog) p = scanForward prog p :=
  find?_key_map_val fun q => by
    rw [← matchingPair_iff_scanForward hopen, ← mem_matchTable]
    simp

theorem tableBackward_matchTable {prog : List Byte} {q : Nat} (hclose : prog[q]? = some closeBracketByte) :
    tableBackward (matchTable prog) q = scanBackward prog q :=
  find?_key_map_val fun p => by
    rw [← matchingPair_iff_scanBackward hclose, ← mem_matchTable]
    simp

end Sys2Proof.Machine

open Sys2Proof Sys2Proof.Machine

/-- Settles O26: on a bracket whose jump is taken the lookup is the scan, and both resolvers leave every other byte
where it stands. -/
theorem matchTableResolvesAsTheScans : Obligations.MatchTableResolvesAsTheScans := by
  intro prog c v p hc
  unfold resolveByTable resolve
  obtain rfl | rfl | ⟨hno, hnc⟩ := bracket_cases c
  · rw [tableForward_matchTable hc]
    simp
  · rw [tableBackward_matchTable hc]
    simp
  · have hnot : jumpTaken c v = false := by simp [jumpTaken, hno, hnc]
    simp [hnot]
end

section
/-! The decoder and the encoder are inverse (R43, R44), and what follows for the alphabet, for a program's bytes and for
the decoder's lines. -/

namespace Sys2Proof

/-- The round trip of each instruction, for all of them. -/
theorem roundTrip (i : Instr) : Laws.RoundTrip.Statement i := by
  cases i with
  | add => exact Laws.RoundTrip.add
  | subtract => exact Laws.RoundTrip.subtract
  | moveRight => exact Laws.RoundTrip.moveRight
  | moveLeft => exact Laws.RoundTrip.moveLeft
  | output => exact Laws.RoundTrip.output
  | input => exact Laws.RoundTrip.input
  | openBracket => exact Laws.RoundTrip.openBracket
  | closeBracket => exact Laws.RoundTrip.closeBracket

theorem Instr.wellFormed_eq_true (i : Instr) : i.wellFormed = true := (roundTrip i).1

@[simp] theorem decode_encode (i : Instr) : decode (encode i) = .valid i := (roundTrip i).2

theorem decode_eq_valid_iff {b : Byte} {i : Instr} : decode b = .valid i ↔ encode i = b :=
  ⟨encode_of_decode, fun h => h ▸ decode_encode i⟩

/-- The alphabet is the set of the instructions' bytes (R40, R43). -/
theorem exists_encode_eq_iff {b : Byte} :
    (∃ i, encode i = b) ↔ b ∈ ([0x2B, 0x2C, 0x2D, 0x2E, 0x3C, 0x3E, 0x5B, 0x5D] : List Byte) := by
  constructor
  · rintro ⟨i, rfl⟩
    cases i <;> decide
  · simp only [List.mem_cons, List.not_mem_nil, or_false]
    rintro (rfl | rfl | rfl | rfl | rfl | rfl | rfl | rfl)
    · exact ⟨.add, rfl⟩
    · exact ⟨.input, rfl⟩
    · exact ⟨.subtract, rfl⟩
    · exact ⟨.output, rfl⟩
    · exact ⟨.moveLeft, rfl⟩
    · exact ⟨.moveRight, rfl⟩
    · exact ⟨.openBracket, rfl⟩
    · exact ⟨.closeBracket, rfl⟩

theorem map_decode_assemble (is : List Instr) : (assemble is).map decode = is.map .valid := by
  rw [assemble, List.map_map]
  exact List.map_congr_left fun i _ => decode_encode i

theorem eq_assemble_of_map_decode {bytes : List Byte} {is : List Instr} (h : bytes.map decode = is.map .valid) :
    bytes = assemble is := by
  induction bytes generalizing is with
  | nil => rw [List.map_eq_nil_iff.mp h.symm, assemble_nil]
  | cons b bytes ih =>
    cases is with
    | nil => cases h
    | cons i is =>
      rw [List.map_cons, List.map_cons, List.cons.injEq] at h
      obtain ⟨hb, hrest⟩ := h
      rw [assemble_cons, encode_of_decode hb, ← ih hrest]

/-! ### The decoder's lines -/

theorem decoderLines_of_valid {b : Byte} {i : Instr} (h : decode b = .valid i) :
    decoderLines b = { kind := i.kind.code, valid := true, literal := b } := by
  simp [decoderLines, h]

theorem decoderLines_of_invalid {b c : Byte} (h : decode b = .invalidInstruction c) :
    decoderLines b = { kind := 0, valid := false, literal := b } := by
  simp [decoderLines, h]

theorem OpKind.code_ne_seven (k : OpKind) : k.code ≠ 7 := by
  cases k <;> simp [OpKind.code]

/-- The code of a kind determines the instruction up to which of the two brackets it is (R45). -/
theorem Instr.kind_code_eq_iff {i j : Instr} (hne : i ≠ j) :
    i.kind.code = j.kind.code ↔
      (i = .openBracket ∨ i = .closeBracket) ∧ (j = .openBracket ∨ j = .closeBracket) := by
  revert hne
  cases i <;> cases j <;> decide

end Sys2Proof

open Sys2Proof Sys2Proof.Machine

/-- Settles O4: the decoder and the encoder are inverse on each byte, and a program is its bytes one by one. -/
theorem programEncodingRoundTrips : Obligations.ProgramEncodingRoundTrips :=
  ⟨fun is => ⟨map_decode_assemble is, fun i _ => i.wellFormed_eq_true⟩, fun _ _ => eq_assemble_of_map_decode⟩

/-- Settles O1: eight bytes are instructions' bytes, and the other two are outside the alphabet. -/
theorem sampleBytesDecode : Obligations.SampleBytesDecode :=
  ⟨decode_encode .add, decode_encode .subtract, decode_encode .moveRight, decode_encode .moveLeft,
    decode_encode .output, decode_encode .input, decode_encode .openBracket, decode_encode .closeBracket,
    by decide, by decide⟩

/-- Settles O2: a byte decodes exactly when it is some instruction's byte. -/
theorem decoderAcceptsExactlyTheAlphabet : Obligations.DecoderAcceptsExactlyTheAlphabet := by
  intro b
  refine ⟨?_, decode_eq_invalidInstruction⟩
  simp only [decode_eq_valid_iff]
  exact exists_encode_eq_iff

/-- Settles O3: the lines are read off the decoder's two verdicts, and the codes off the eight kinds. -/
theorem decoderLinesFollowTheDecoder : Obligations.DecoderLinesFollowTheDecoder := by
  intro b
  cases hb : decode b with
  | valid i =>
    rw [decoderLines_of_valid hb]
    exact ⟨rfl, i.kind.code_ne_seven, iff_of_true rfl ⟨i, rfl⟩, fun j hj => by cases hj; rfl,
      fun _ _ => Instr.kind_code_eq_iff⟩
  | invalidInstruction c =>
    rw [decoderLines_of_invalid hb]
    exact ⟨rfl, by simp, iff_of_false nofun nofun, nofun, fun _ _ => Instr.kind_code_eq_iff⟩
end

section
/-! The start state's registers (R94). -/

open Sys2Proof Sys2Proof.Machine

/-- Settles O32: every field of the start state is the value of the reset table, and `State.reset` is a start state. -/
theorem resetHoldsTheGivenValues : Obligations.ResetHoldsTheGivenValues := by
  refine ⟨fun l => ?_, rfl, rfl, rfl, rfl⟩
  exact ⟨State.start_launch l, rfl, rfl, rfl, rfl, rfl, State.start_cell l, rfl, rfl, rfl, rfl⟩
end

section
/-! What `,` answers under each condition of its policies (R67 to R71), the converse of `execInput_next`. -/

namespace Sys2Proof.Machine

/-- When `,` raises `InputExhausted` (R68, R69, R86). -/
def State.InputMissing (s : State) : Prop :=
  (s.policy = .wrap ∧ s.inputLen = 0) ∨ (s.policy = .fault ∧ s.inputLen ≤ s.ic)

/-- Where the cursor goes when a byte is taken: circular under `Wrap`, one further under every other policy. -/
def State.CursorGoesTo (s : State) (n : Nat) : Prop :=
  (s.policy = .wrap ∧ n = (s.ic + 1) % s.inputLen) ∨ (s.policy ≠ .wrap ∧ n = s.ic + 1)

section
variable {s : State}

theorem execInput_of_missing (h : s.InputMissing) : execInput s = .next (s.raise (.inputExhausted s.ip)) := by
  obtain ⟨hp, hl⟩ | ⟨hp, hl⟩ := h
  · simp only [execInput, hp, inputWrap, if_pos hl, raiseInputExhausted]
  · simp only [execInput, hp, inputFault, if_pos hl, raiseInputExhausted]

/-- While there is a byte, every policy stores it. -/
theorem execInput_of_lt {n : Nat} (hlt : s.ic < s.inputLen) (hn : s.CursorGoesTo n) :
    execInput s = storeInput n s := by
  have hne : s.inputLen ≠ 0 := Nat.ne_zero_of_lt hlt
  have hge : ¬ s.inputLen ≤ s.ic := hlt.not_ge
  obtain ⟨hp, rfl⟩ | ⟨hp, rfl⟩ := hn
  · simp only [execInput, hp, inputWrap, if_neg hne]
  · cases hpol : s.policy with
    | wrap => exact absurd hpol hp
    | fault => simp only [execInput, hpol, inputFault, if_neg hge]
    | zero => simp only [execInput, hpol, inputZero, if_neg hge]
    | unchanged => simp only [execInput, hpol, inputUnchanged, if_neg hge]

theorem execInput_of_getElem? {b : Byte} {n : Nat} (hb : s.input[s.ic]? = some b) (hd : s.dp < s.tapeLen)
    (hn : s.CursorGoesTo n) : execInput s = .next ((s.setCell b).setIc n).advance := by
  obtain ⟨hlt, rfl⟩ := List.getElem?_eq_some_iff.mp hb
  rw [execInput_of_lt hlt hn, storeInput_of_lt hlt hd]

theorem execInput_of_zero_at_end (hp : s.policy = .zero) (hend : s.inputLen ≤ s.ic) (hd : s.dp < s.tapeLen) :
    execInput s = .next (s.setCell 0).advance := by
  simp only [execInput, hp, inputZero, if_pos hend, writeCell_of_lt hd]

theorem execInput_of_unchanged_at_end (hp : s.policy = .unchanged) (hend : s.inputLen ≤ s.ic) :
    execInput s = .next s.advance := by
  simp only [execInput, hp, inputUnchanged, if_pos hend]

/-- The canonical tape is what makes the stored byte the one that is read back. -/
theorem execInput_stores {n : Nat} (hlt : s.ic < s.inputLen) (hd : s.dp < s.tapeLen)
    (hwf : Memory.wf s.tape = true) (hn : s.CursorGoesTo n) :
    ∃ t, execInput s = .next t ∧ s.StoredInput t n := by
  have hbyte : s.input[s.ic]? = some s.input[s.ic] := List.getElem?_eq_getElem hlt
  refine ⟨_, execInput_of_getElem? hbyte hd hn, ?_⟩
  exact ⟨⟨_, hbyte, State.setCell_cell_same hwf⟩, s.setCell_sameTapeBut _, rfl, rfl, rfl, rfl, rfl, rfl, rfl⟩

theorem State.StoredInput.ic_eq {t : State} {n : Nat} (h : s.StoredInput t n) : t.ic = n := by
  obtain ⟨-, -, hic, -⟩ := h
  exact hic

theorem State.cursorGoesTo_succ (hp : s.policy ≠ .wrap) : s.CursorGoesTo (s.ic + 1) := .inr ⟨hp, rfl⟩

end

end Sys2Proof.Machine

open Sys2Proof Sys2Proof.Machine

/-- Settles O16: `Wrap` raises on an empty INPUT and otherwise stores; the circular cursor has its last byte at the
length. -/
theorem inputUnderWrap : Obligations.InputUnderWrap := by
  intro s hp
  refine ⟨fun hempty => execInput_of_missing (.inl ⟨hp, hempty⟩), fun hlt hd hwf => ?_⟩
  obtain ⟨t, hnext, hstored⟩ := execInput_stores hlt hd hwf (.inl ⟨hp, rfl⟩)
  refine ⟨t, hnext, hstored, fun hin => ?_, fun hlast => ?_⟩
  · rw [hstored.ic_eq, Nat.mod_eq_of_lt hin]
  · rw [hstored.ic_eq, hlast, Nat.mod_self]

/-- Settles O17: `Fault` raises at the end of INPUT and stores before it. -/
theorem inputUnderFault : Obligations.InputUnderFault := by
  intro s hp
  exact ⟨fun hend => execInput_of_missing (.inr ⟨hp, hend⟩),
    fun hlt hd hwf => execInput_stores hlt hd hwf (State.cursorGoesTo_succ (by simp [hp]))⟩

/-- Settles O18: `Zero` stores 0 at the end of INPUT and the byte at the cursor before it. -/
theorem inputUnderZero : Obligations.InputUnderZero := by
  intro s hp hd hwf
  refine ⟨fun hend => ?_, fun hlt => execInput_stores hlt hd hwf (State.cursorGoesTo_succ (by simp [hp]))⟩
  exact ⟨_, execInput_of_zero_at_end hp hend hd, State.setCell_cell_same hwf, s.setCell_sameTapeBut 0,
    rfl, rfl, rfl, rfl, rfl, rfl, rfl⟩

/-- Settles O19: `Unchanged` only advances at the end of INPUT and stores before it. -/
theorem inputUnderUnchanged : Obligations.InputUnderUnchanged := by
  intro s hp
  exact ⟨execInput_of_unchanged_at_end hp,
    fun hlt hd hwf => execInput_stores hlt hd hwf (State.cursorGoesTo_succ (by simp [hp]))⟩
end

section
/-! What the brackets answer (R72, R73): the two outcomes of a jump by the resolver's answer, and the resolver's answer
by the current cell and the first zero of the nesting balance. -/

namespace Sys2Proof.Machine

section
variable {c : Byte} {s : State} (hd : s.dp < s.tapeLen)
include hd

theorem jumpBy_of_resolve_some {q : Nat} (h : resolve c (s.cell s.dp) s.ip s.prog = some q) :
    jumpBy c s = .next (s.setIp q).advance := by
  simp only [jumpBy_of_lt hd, h]

theorem jumpBy_of_resolve_none (h : resolve c (s.cell s.dp) s.ip s.prog = none) :
    jumpBy c s = .next (s.raise (.bracketMismatch s.ip)) := by
  simp only [jumpBy_of_lt hd, h]

end

theorem resolve_open_not_taken {v : Byte} (h : v ≠ 0) (p : Nat) (prog : List Byte) :
    resolve openBracketByte v p prog = some p :=
  resolve_not_taken (by simpa using h) p prog

theorem resolve_close_not_taken (p : Nat) (prog : List Byte) : resolve closeBracketByte 0 p prog = some p :=
  resolve_not_taken (by simp) p prog

theorem scanForward_eq_none_iff {prog : List Byte} {p : Nat} :
    scanForward prog p = none ↔ ∀ q, ¬ FirstZeroForward prog p q := by
  simp only [Option.eq_none_iff_forall_ne_some, ne_eq, scanForward_eq_some_iff]

theorem scanBackward_eq_none_iff {prog : List Byte} {p : Nat} (hp : p ≤ prog.length) :
    scanBackward prog p = none ↔ ∀ q, ¬ FirstZeroBackward prog p q := by
  simp only [Option.eq_none_iff_forall_ne_some, ne_eq, scanBackward_eq_some_iff, hp, true_and]

/-- Only a taken `[` whose scan runs off the program has no target (R77, R79). -/
theorem resolve_open_eq_none_iff {v : Byte} {p : Nat} {prog : List Byte} :
    resolve openBracketByte v p prog = none ↔ v = 0 ∧ scanForward prog p = none := by
  by_cases hv : v = 0
  · rw [hv, resolve_open_taken, and_iff_right rfl]
  · rw [resolve_open_not_taken hv]
    exact iff_of_false nofun fun h => hv h.1

theorem resolve_close_eq_none_iff {v : Byte} {p : Nat} {prog : List Byte} :
    resolve closeBracketByte v p prog = none ↔ v ≠ 0 ∧ scanBackward prog p = none := by
  by_cases hv : v = 0
  · rw [hv, resolve_close_not_taken]
    exact iff_of_false nofun fun h => h.1 rfl
  · rw [resolve_close_taken hv, and_iff_right hv]

end Sys2Proof.Machine

open Sys2Proof Sys2Proof.Machine

/-- Settles O20: the resolver answers `IP` itself, the first zero of the forward balance, or nothing. -/
theorem openBracketFollowsTheCell : Obligations.OpenBracketFollowsTheCell := by
  intro s hd
  refine ⟨fun hcell => ?_, fun q hcell hq => ?_, fun hcell hnone => ?_⟩
  · exact jumpBy_of_resolve_some hd (resolve_open_not_taken hcell _ _)
  · exact jumpBy_of_resolve_some hd (by rw [hcell, resolve_open_taken, scanForward_eq_some_iff.mpr hq])
  · exact jumpBy_of_resolve_none hd (resolve_open_eq_none_iff.mpr ⟨hcell, scanForward_eq_none_iff.mpr hnone⟩)

/-- Settles O21: the mirror of O20; `IP` at most `PROG_LEN` keeps the backward scan inside the program. -/
theorem closeBracketFollowsTheCell : Obligations.CloseBracketFollowsTheCell := by
  intro s hd hip
  refine ⟨fun hcell => ?_, fun q hcell hq => ?_, fun hcell hnone => ?_⟩
  · exact jumpBy_of_resolve_some hd (by rw [hcell, resolve_close_not_taken])
  · exact jumpBy_of_resolve_some hd (by rw [resolve_close_taken hcell, scanBackward_eq_some_iff.mpr ⟨hip, hq⟩])
  · exact jumpBy_of_resolve_none hd
      (resolve_close_eq_none_iff.mpr ⟨hcell, (scanBackward_eq_none_iff hip).mpr hnone⟩)
end

section
/-! The resolver sees the two bracket bytes and nothing else (R78): a change of the program's bytes that keeps both
brackets where they are, and makes no new ones, keeps every answer. -/

namespace Sys2Proof.Machine

/-- `f` takes a byte to a bracket exactly when it is that bracket. -/
def KeepsBrackets (f : Byte → Byte) : Prop :=
  ∀ b, (f b = openBracketByte ↔ b = openBracketByte) ∧ (f b = closeBracketByte ↔ b = closeBracketByte)

section
variable {f : Byte → Byte} (hf : KeepsBrackets f)
include hf

theorem KeepsBrackets.balanceForward (b : Byte) (bal : Nat) : balanceForward (f b) bal = balanceForward b bal := by
  simp only [Machine.balanceForward, (hf b).1, (hf b).2]

theorem KeepsBrackets.balanceBackward (b : Byte) (bal : Nat) :
    balanceBackward (f b) bal = balanceBackward b bal := by
  simp only [Machine.balanceBackward, (hf b).1, (hf b).2]

theorem KeepsBrackets.scanForwardFrom (rest : List Byte) (j bal : Nat) :
    scanForwardFrom (rest.map f) j bal = scanForwardFrom rest j bal := by
  induction rest generalizing j bal with
  | nil => rfl
  | cons b rest ih => rw [List.map_cons, scanForwardFrom_cons, scanForwardFrom_cons, hf.balanceForward, ih]

theorem KeepsBrackets.scanBackwardFrom (prog : List Byte) (j bal : Nat) :
    scanBackwardFrom (prog.map f) j bal = scanBackwardFrom prog j bal := by
  induction j generalizing bal with
  | zero => rfl
  | succ j ih =>
    have hread : progRead (prog.map f) j = (progRead prog j).map f := List.getElem?_map
    cases hb : progRead prog j with
    | none => simp [Machine.scanBackwardFrom, hread, hb]
    | some b =>
      rw [hb, Option.map_some] at hread
      rw [scanBackwardFrom_succ hread, scanBackwardFrom_succ hb, hf.balanceBackward, ih]

theorem KeepsBrackets.resolve (c v : Byte) (p : Nat) (prog : List Byte) :
    resolve c v p (prog.map f) = resolve c v p prog := by
  simp only [Machine.resolve, scanForward, scanBackward, ← List.map_drop, hf.scanForwardFrom, hf.scanBackwardFrom]

end

/-- A bracket as it is, and 0 for every other byte: what the resolver sees of a byte. -/
def bracketMask (b : Byte) : Byte := if b = openBracketByte ∨ b = closeBracketByte then b else 0

theorem keepsBrackets_bracketMask : KeepsBrackets bracketMask := by
  intro b
  obtain rfl | rfl | ⟨ho, hc⟩ := bracket_cases b
  · simp [bracketMask]
  · simp [bracketMask]
  · have hzero : bracketMask b = 0 := if_neg (not_or.mpr ⟨ho, hc⟩)
    rw [hzero]
    exact ⟨iff_of_false (by decide) ho, iff_of_false (by decide) hc⟩

theorem bracketMask_congr {b b' : Byte} (ho : b = openBracketByte ↔ b' = openBracketByte)
    (hc : b = closeBracketByte ↔ b' = closeBracketByte) : bracketMask b = bracketMask b' := by
  obtain rfl | rfl | ⟨hno, hnc⟩ := bracket_cases b
  · rw [ho.mp rfl]
  · rw [hc.mp rfl]
  · rw [bracketMask, bracketMask, if_neg (not_or.mpr ⟨hno, hnc⟩),
      if_neg (not_or.mpr ⟨mt ho.mpr hno, mt hc.mpr hnc⟩)]

theorem map_bracketMask_congr {prog prog' : List Byte} (hlen : prog.length = prog'.length)
    (h : ∀ i, (progRead prog i = some openBracketByte ↔ progRead prog' i = some openBracketByte) ∧
      (progRead prog i = some closeBracketByte ↔ progRead prog' i = some closeBracketByte)) :
    prog.map bracketMask = prog'.map bracketMask := by
  refine List.ext_getElem (by simpa using hlen) fun i hi hi' => ?_
  rw [List.length_map] at hi hi'
  obtain ⟨ho, hc⟩ := h i
  simp only [progRead, List.getElem?_eq_getElem hi, List.getElem?_eq_getElem hi', Option.some.injEq] at ho hc
  rw [List.getElem_map, List.getElem_map, bracketMask_congr ho hc]

end Sys2Proof.Machine

open Sys2Proof Sys2Proof.Machine

/-- Settles O27: the two programs are the same once every byte but the brackets is masked. -/
theorem scansIgnoreOtherBytes : Obligations.ScansIgnoreOtherBytes := by
  intro prog prog' hlen h c v p
  calc resolve c v p prog
      = resolve c v p (prog.map bracketMask) := (keepsBrackets_bracketMask.resolve c v p prog).symm
    _ = resolve c v p (prog'.map bracketMask) := by rw [map_bracketMask_congr hlen h]
    _ = resolve c v p prog' := keepsBrackets_bracketMask.resolve c v p prog'
end

section
/-! How a step can end a run (R52, R82, R88): the conditions of the four faults, and that a step which raises none of
them leaves the record and, but for the halt, STATUS alone. -/

namespace Sys2Proof.Machine

/-- The instruction `i` raises this record in `s` (R82, R85, R86). -/
inductive State.Raises (s : State) : Instr → FaultRecord → Prop where
  | input (h : s.InputMissing) : s.Raises .input (.inputExhausted s.ip)
  | openBracket (hcell : s.cell s.dp = 0) (hscan : scanForward s.prog s.ip = none) :
      s.Raises .openBracket (.bracketMismatch s.ip)
  | closeBracket (hcell : s.cell s.dp ≠ 0) (hscan : scanBackward s.prog s.ip = none) :
      s.Raises .closeBracket (.bracketMismatch s.ip)

/-- A step from `s` raises this record: the byte at `IP` is illegal (R84), or its instruction raises. -/
inductive State.StepRaises (s : State) : FaultRecord → Prop where
  | illegal {b : Byte} (h : fetch s = .illegal b) : s.StepRaises (.invalidInstruction b s.ip)
  | instr {i : Instr} {r : FaultRecord} (h : fetch s = .instr i) (hr : s.Raises i r) : s.StepRaises r

theorem jumpBy_ends {c : Byte} {s t : State} (h : jumpBy c s = .next t) :
    (t.status = s.status ∧ t.fault = s.fault) ∨
      (resolve c (s.cell s.dp) s.ip s.prog = none ∧ t = s.raise (.bracketMismatch s.ip)) := by
  obtain ⟨-, ⟨q, -, rfl⟩ | ⟨hnone, rfl⟩⟩ := jumpBy_next h
  · exact .inl ⟨rfl, rfl⟩
  · exact .inr ⟨hnone, rfl⟩

theorem exec_ends {i : Instr} {s t : State} (h : exec i s = .next t) :
    (t.status = s.status ∧ t.fault = s.fault) ∨ ∃ r, s.Raises i r ∧ t = s.raise r := by
  cases i with
  | add | subtract =>
    obtain ⟨-, rfl⟩ := addToCell_next h
    exact .inl ⟨rfl, rfl⟩
  | moveRight | moveLeft =>
    obtain rfl := movePointer_next h
    exact .inl ⟨rfl, rfl⟩
  | output =>
    obtain ⟨-, rfl⟩ := execOutput_next h
    exact .inl ⟨rfl, rfl⟩
  | input =>
    rcases execInput_next h with ⟨hmissing, rfl⟩ | ⟨b, n, -, -, -, rfl⟩ | ⟨-, -, -, rfl⟩ | ⟨-, -, rfl⟩
    · exact .inr ⟨_, .input hmissing, rfl⟩
    · exact .inl ⟨rfl, rfl⟩
    · exact .inl ⟨rfl, rfl⟩
    · exact .inl ⟨rfl, rfl⟩
  | openBracket =>
    refine (jumpBy_ends h).imp_right fun ⟨hnone, ht⟩ => ?_
    obtain ⟨hcell, hscan⟩ := resolve_open_eq_none_iff.mp hnone
    exact ⟨_, .openBracket hcell hscan, ht⟩
  | closeBracket =>
    refine (jumpBy_ends h).imp_right fun ⟨hnone, ht⟩ => ?_
    obtain ⟨hcell, hscan⟩ := resolve_close_eq_none_iff.mp hnone
    exact ⟨_, .closeBracket hcell hscan, ht⟩

/-- A step goes on in Running, halts at the end of the program, or raises. -/
theorem step_ends {s t : State} (h : step s = .next t) :
    (t.status = .running ∧ t.fault = s.fault) ∨ (s.progLen ≤ s.ip ∧ t = s.halt) ∨
      ∃ r, s.StepRaises r ∧ t = s.raise r := by
  obtain ⟨hrun, ⟨hend, rfl⟩ | ⟨b, hb, rfl⟩ | ⟨i, hi, he⟩⟩ := step_next h
  · exact .inr (.inl ⟨fetch_endOfProgram.mp hend, rfl⟩)
  · exact .inr (.inr ⟨_, .illegal hb, rfl⟩)
  · obtain ⟨hstatus, hfault⟩ | ⟨r, hr, rfl⟩ := exec_ends he
    · exact .inl ⟨hstatus.trans hrun, hfault⟩
    · exact .inr (.inr ⟨r, .instr hi hr, rfl⟩)

theorem step_raises_of_faulted {s t : State} (h : step s = .next t) (ht : t.status = .faulted) :
    ∃ r, s.StepRaises r ∧ t = s.raise r := by
  obtain ⟨hrun, -⟩ | ⟨-, rfl⟩ | hraise := step_ends h
  · simp [hrun] at ht
  · simp at ht
  · exact hraise

theorem State.StepRaises.ne_none {s : State} {r : FaultRecord} (h : s.StepRaises r) : r ≠ .none := by
  rcases h with ⟨-⟩ | ⟨-, ⟨-⟩ | ⟨-⟩ | ⟨-⟩⟩ <;> nofun

/-- The recorded position is that of the faulting instruction (D8). -/
theorem State.StepRaises.pos_eq {s : State} {r : FaultRecord} (h : s.StepRaises r) : r.pos = s.ip := by
  rcases h with ⟨-⟩ | ⟨-, ⟨-⟩ | ⟨-⟩ | ⟨-⟩⟩ <;> rfl

theorem progRead_of_fetch_instr {s : State} {i : Instr} (h : fetch s = .instr i) :
    progRead s.prog s.ip = some (encode i) := by
  obtain ⟨b, hb, hi⟩ := fetch_instr.mp h
  rw [hb, encode_of_decode hi]

end Sys2Proof.Machine

open Sys2Proof Sys2Proof.Machine

/-- Settles O28: the only way to Faulted from a step is the fault entry, with one of the four records. -/
theorem faultingStepWritesOnlyStatusAndRecord : Obligations.FaultingStepWritesOnlyStatusAndRecord := by
  intro s t h ht
  obtain ⟨r, hr, rfl⟩ := step_raises_of_faulted h ht
  exact ⟨hr.ne_none, rfl⟩

/-- Settles O29: an instruction that turns Faulted has raised, under the condition of its record. -/
theorem onlyInputAndBracketsRaise : Obligations.OnlyInputAndBracketsRaise := by
  intro i s t hs h ht
  obtain ⟨hstatus, -⟩ | ⟨r, hr, rfl⟩ := exec_ends h
  · exact absurd (hstatus.symm.trans ht) hs
  · cases hr with
    | input hmissing => exact .inl ⟨rfl, rfl, hmissing⟩
    | openBracket hcell hscan => exact .inr (.inl ⟨rfl, rfl, hcell, hscan⟩)
    | closeBracket hcell hscan => exact .inr (.inr ⟨rfl, rfl, hcell, hscan⟩)

/-- Settles O38: halting and raising leave OUT alone, and so does every row of the write table but that of `.`. -/
theorem outGrowsOnlyByOutput : Obligations.OutGrowsOnlyByOutput := by
  intro s t h
  obtain ⟨-, ⟨-, rfl⟩ | ⟨b, -, rfl⟩ | ⟨i, hi, he⟩⟩ := step_next h
  · exact .inl s.halt_out
  · exact .inl (s.raise_out _)
  · by_cases hout : i = .output
    · subst hout
      obtain ⟨-, rfl⟩ := execOutput_next he
      exact .inr ⟨hi, rfl⟩
    · obtain ⟨-, -, -, -, -, hframe, -⟩ := instructionsWriteOnlyTheirRow i s t he
      exact .inl (hframe hout)
end

section
/-! The register views of an ended run (R19, R20, R82): the code of STATUS, and the cause and the byte of a record by
the byte at `IP` that made the step raise it. -/

namespace Sys2Proof.Machine

theorem Status.code_spec (st : Status) :
    (st.code = 0b00 ↔ st = .running) ∧ (st.code = 0b01 ↔ st = .halted) ∧ (st.code = 0b10 ↔ st = .faulted) ∧
      st.code ≠ 0b11 := by
  cases st <;> decide

/-- `FAULT_CAUSE` and `FAULT_BYTE` of `r` are those of a fault at the byte `b`. -/
def FaultRecord.CausedBy (r : FaultRecord) (b : Byte) : Prop :=
  (r.cause = 1 ↔ ∀ i, decode b ≠ .valid i) ∧
  (r.cause = 2 ↔ b = openBracketByte ∨ b = closeBracketByte) ∧
  (r.cause = 3 ↔ b = encode .input) ∧
  r.cause ≠ 0 ∧ (r.cause = 1 → r.byte = b) ∧ (r.cause ≠ 1 → r.byte = 0)

/-- A byte outside the alphabet is neither a bracket nor `,`. -/
theorem causedBy_invalidInstruction {b : Byte} (h : ∀ i, decode b ≠ .valid i) (p : Nat) :
    (FaultRecord.invalidInstruction b p).CausedBy b := by
  have hne (i : Instr) : b ≠ encode i := fun hb => h i (hb ▸ decode_encode i)
  have hbracket : ¬ (b = openBracketByte ∨ b = closeBracketByte) := not_or.mpr ⟨hne .openBracket, hne .closeBracket⟩
  exact ⟨iff_of_true rfl h, iff_of_false (by simp [FaultRecord.cause]) hbracket,
    iff_of_false (by simp [FaultRecord.cause]) (hne .input), by simp [FaultRecord.cause], fun _ => rfl,
    fun hcause => absurd rfl hcause⟩

theorem State.Raises.causedBy {s : State} {i : Instr} {r : FaultRecord} (h : s.Raises i r) :
    r.CausedBy (encode i) := by
  have hvalid : ¬ ∀ j, decode (encode i) ≠ .valid j := fun hne => hne i (decode_encode i)
  cases h with
  | input | openBracket | closeBracket =>
    refine ⟨iff_of_false (by simp [FaultRecord.cause]) hvalid, ?_⟩
    simp [FaultRecord.cause, FaultRecord.byte, encode, openBracketByte, closeBracketByte]

theorem State.StepRaises.causedBy {s : State} {r : FaultRecord} (h : s.StepRaises r) :
    ∃ b, progRead s.prog s.ip = some b ∧ r.CausedBy b := by
  cases h with
  | @illegal b h =>
    obtain ⟨hread, hinvalid⟩ := fetch_illegal.mp h
    exact ⟨b, hread, causedBy_invalidInstruction (fun i => by simp [hinvalid]) _⟩
  | @instr i r h hr => exact ⟨encode i, progRead_of_fetch_instr h, hr.causedBy⟩

end Sys2Proof.Machine

open Sys2Proof Sys2Proof.Machine

/-- Settles O30: a fault is one of the raises, each with its own cause, and without a raise the record is the one
before. -/
theorem faultRegistersRecordTheFault : Obligations.FaultRegistersRecordTheFault := by
  intro s t h
  refine ⟨t.status.code_spec, fun ht => ?_, fun hnone ht => ?_⟩
  · obtain ⟨r, hr, rfl⟩ := step_raises_of_faulted h ht
    exact ⟨hr.pos_eq, rfl, hr.causedBy⟩
  · have hfault : t.fault = .none := by
      obtain ⟨-, hsame⟩ | ⟨-, rfl⟩ | ⟨r, -, rfl⟩ := step_ends h
      · rw [hsame, hnone]
      · exact hnone
      · exact absurd (s.raise_status r) ht
    rw [hfault]
    exact ⟨rfl, rfl, rfl⟩
end

section
/-! An ended run shows why it ended (R52, R82): the condition under which a step raises a record still holds in the
state it leaves, since raising writes STATUS and FAULT only. -/

namespace Sys2Proof.Machine

theorem State.faultExplained_of_none {s : State} (h : s.fault = .none) : s.faultExplained = true := by
  simp [State.faultExplained, h]

theorem State.faultExplained_invalidInstruction {s : State} {b : Byte} {p : Nat}
    (h : s.fault = .invalidInstruction b p) :
    s.faultExplained = true ↔ p = s.ip ∧ progRead s.prog p = some b ∧ decode b = .invalidInstruction b := by
  simp [State.faultExplained, h, and_assoc]

theorem State.faultExplained_bracketMismatch {s : State} {p : Nat} (h : s.fault = .bracketMismatch p) :
    s.faultExplained = true ↔ p = s.ip ∧
      ((progRead s.prog p = some openBracketByte ∧ s.cell s.dp = 0 ∧ scanForward s.prog p = none) ∨
       (progRead s.prog p = some closeBracketByte ∧ s.cell s.dp ≠ 0 ∧ scanBackward s.prog p = none)) := by
  simp [State.faultExplained, h, and_assoc]

theorem State.faultExplained_inputExhausted {s : State} {p : Nat} (h : s.fault = .inputExhausted p) :
    s.faultExplained = true ↔ p = s.ip ∧ progRead s.prog p = some (encode .input) ∧
      ((s.policy = .wrap ∧ s.inputLen = 0) ∨ (s.policy = .fault ∧ s.ic = s.inputLen)) := by
  simp [State.faultExplained, h, and_assoc]

/-- The range of `IC` makes "at or past the end of INPUT" the end itself (R17). -/
theorem State.Raises.faultExplained {s : State} {i : Instr} {r : FaultRecord} (h : s.Raises i r)
    (hread : progRead s.prog s.ip = some (encode i)) (hic : s.IcInRange) : (s.raise r).faultExplained = true := by
  cases h with
  | input hmissing =>
    obtain ⟨-, -, hle⟩ := hic
    have hcondition : (s.policy = .wrap ∧ s.inputLen = 0) ∨ (s.policy = .fault ∧ s.ic = s.inputLen) :=
      hmissing.imp_right fun ⟨hp, hend⟩ => ⟨hp, le_antisymm (hle (by simp [hp])) hend⟩
    exact (State.faultExplained_inputExhausted rfl).mpr ⟨rfl, hread, hcondition⟩
  | openBracket hcell hscan =>
    exact (State.faultExplained_bracketMismatch rfl).mpr ⟨rfl, .inl ⟨hread, hcell, hscan⟩⟩
  | closeBracket hcell hscan =>
    exact (State.faultExplained_bracketMismatch rfl).mpr ⟨rfl, .inr ⟨hread, hcell, hscan⟩⟩

theorem State.StepRaises.faultExplained {s : State} {r : FaultRecord} (h : s.StepRaises r) (hic : s.IcInRange) :
    (s.raise r).faultExplained = true := by
  cases h with
  | illegal h =>
    obtain ⟨hread, hinvalid⟩ := fetch_illegal.mp h
    exact (State.faultExplained_invalidInstruction rfl).mpr ⟨rfl, hread, hinvalid⟩
  | instr h hr => exact hr.faultExplained (progRead_of_fetch_instr h) hic

end Sys2Proof.Machine

open Sys2Proof Sys2Proof.Machine

/-- Settles O35: a step in Running has no record before it, halts at `PROG_LEN` only, and raises a true record. -/
theorem stepKeepsTheEndExplained : Obligations.StepKeepsTheEndExplained := by
  intro s t hinv _ h
  have hrun : s.status ≠ .faulted := by simp [(step_next h).1]
  have hnone : s.fault = .none := hinv.fault_none hrun
  obtain ⟨-, -, hip, hic, -⟩ := hinv
  obtain ⟨hstatus, hfault⟩ | ⟨hend, rfl⟩ | ⟨r, hr, rfl⟩ := step_ends h
  · exact ⟨by simp [hstatus], State.faultExplained_of_none (hfault.trans hnone)⟩
  · exact ⟨fun _ => le_antisymm hip hend, State.faultExplained_of_none hnone⟩
  · exact ⟨nofun, hr.faultExplained hic⟩
end

section
/-! Runs (R59, R60, R61): a run in two parts, what holds along every run, and what its result shows of its last
state. -/

namespace Sys2Proof.Machine

theorem runFor_add (m k : Nat) (s : State) : runFor (m + k) s = runFor k (runFor m s) := by
  induction m generalizing s with
  | zero => rw [Nat.zero_add, runFor_zero]
  | succ m ih =>
    rw [Nat.succ_add]
    by_cases hstep : ∃ t, step s = .next t
    · obtain ⟨t, ht⟩ := hstep
      rw [runFor_succ_next ht, runFor_succ_next ht, ih]
    · have hstop := runFor_of_no_next (not_exists.mp hstep)
      rw [hstop, hstop, hstop]

/-- What every step keeps holds at the end of every run. -/
theorem runFor_keeps {P : State → Prop} (hkeep : ∀ s t, P s → step s = .next t → P t) (n : Nat) {s : State}
    (h : P s) : P (runFor n s) := by
  induction n generalizing s with
  | zero => exact h
  | succ n ih =>
    by_cases hstep : ∃ t, step s = .next t
    · obtain ⟨t, ht⟩ := hstep
      rw [runFor_succ_next ht]
      exact ih (hkeep s t h ht)
    · rwa [runFor_of_no_next (not_exists.mp hstep)]

/-! ### The result of a state -/

theorem State.result_eq_none_iff {s : State} : s.result = none ↔ s.status = .running := by
  unfold State.result
  split <;> simp_all

theorem State.result_eq_ok_iff {s : State} {o : List Byte} :
    s.result = some (.ok o) ↔ s.status = .halted ∧ s.out = o := by
  unfold State.result
  split <;> simp_all

theorem State.result_eq_err_iff {s : State} {f : FaultRecord} :
    s.result = some (.err f) ↔ s.status = .faulted ∧ s.fault = f := by
  unfold State.result
  split <;> simp_all

/-! ### The last state of a run -/

theorem runFor_launch (n : Nat) (s : State) : (runFor n s).launch = s.launch :=
  runFor_keeps (P := fun t => t.launch = s.launch)
    (fun t u ht hstep => (stepWritesNoLaunchData t u hstep).trans ht) n rfl

theorem runFor_keeps_inv_and_endExplained (n : Nat) {s : State} (h : s.Inv ∧ s.EndExplained) :
    (runFor n s).Inv ∧ (runFor n s).EndExplained :=
  runFor_keeps (P := fun t => t.Inv ∧ t.EndExplained)
    (fun t u ⟨hinv, hend⟩ hstep =>
      ⟨stepKeepsTheInvariants t u hinv hstep, stepKeepsTheEndExplained t u hinv hend hstep⟩) n h

/-- A true record names a position at which the program has a byte. -/
theorem State.fault_pos_lt {s : State} (h : s.faultExplained = true) (hne : s.fault ≠ .none) :
    s.fault.pos < s.progLen := by
  have hlt {p : Nat} {b : Byte} (hread : progRead s.prog p = some b) : p < s.progLen :=
    (List.getElem?_eq_some_iff.mp hread).1
  cases hf : s.fault with
  | none => exact absurd hf hne
  | invalidInstruction b p =>
    obtain ⟨-, hread, -⟩ := (State.faultExplained_invalidInstruction hf).mp h
    exact hlt hread
  | bracketMismatch p =>
    obtain ⟨-, ⟨hread, -⟩ | ⟨hread, -⟩⟩ := (State.faultExplained_bracketMismatch hf).mp h
    · exact hlt hread
    · exact hlt hread
  | inputExhausted p =>
    obtain ⟨-, hread, -⟩ := (State.faultExplained_inputExhausted hf).mp h
    exact hlt hread

end Sys2Proof.Machine

open Sys2Proof Sys2Proof.Machine

/-- Settles O42: a state with a result is not in Running, so the rest of the longer run stays there. -/
theorem executeResultIsFinal : Obligations.ExecuteResultIsFinal := by
  intro l m n r hmn h
  obtain ⟨k, rfl⟩ := Nat.exists_eq_add_of_le hmn
  have hend : (runFor m (State.start l)).status ≠ .running := fun hrun => by
    rw [execute, State.result_eq_none_iff.mpr hrun] at h
    cases h
  rw [execute, runFor_add, runFor_of_no_next (step_ne_next_of_not_running hend)]
  exact h

/-- Settles O43: the result names the last state's STATUS, and the invariants and the explained end say the rest. -/
theorem executeResultIsOutputOrError : Obligations.ExecuteResultIsOutputOrError := by
  intro l n hl
  obtain ⟨hinv, hhalt, hexplained⟩ :=
    runFor_keeps_inv_and_endExplained n ⟨State.start_inv hl, State.start_endExplained l⟩
  have hlaunch : (runFor n (State.start l)).launch = l := runFor_launch n (State.start l)
  refine ⟨fun o ho => ?_, fun f hf => ?_, State.result_eq_none_iff.mp⟩
  · obtain ⟨hstatus, hout⟩ := State.result_eq_ok_iff.mp ho
    have hip := hhalt hstatus
    rw [State.progLen, hlaunch] at hip
    exact ⟨hstatus, hout, hip, hinv.fault_none (by simp [hstatus])⟩
  · obtain ⟨hstatus, rfl⟩ := State.result_eq_err_iff.mp hf
    obtain ⟨-, -, -, -, hfault, -⟩ := hinv
    have hne := hfault.mp hstatus
    have hpos := State.fault_pos_lt hexplained hne
    rw [State.progLen, hlaunch] at hpos
    exact ⟨hstatus, rfl, hne, hpos⟩
end

section
/-! The mirrored machine (V-MIRROR, D2): exchanging the two moves in the program and mirroring the tape is one
simulation, kept by every operation of the state. -/

namespace Sys2Proof

/-- The instruction with the two moves exchanged. -/
def Instr.mirror : Instr → Instr
  | .moveRight => .moveLeft
  | .moveLeft => .moveRight
  | i => i

theorem Launch.mirror_wellFormed {l : Launch} (h : l.wellFormed = true) : l.mirror.wellFormed = true := h

end Sys2Proof

namespace Sys2Proof.Machine

/-! ### Bytes -/

theorem mirrorByte_encode (i : Instr) : mirrorByte (encode i) = encode i.mirror := by
  cases i <;> decide

theorem mirrorByte_of_invalid {b : Byte} (h : ∀ i, decode b ≠ .valid i) : mirrorByte b = b := by
  have hne (i : Instr) : b ≠ encode i := fun hb => h i (hb ▸ decode_encode i)
  rw [mirrorByte, if_neg (hne _), if_neg (hne _)]

/-- No bracket is a move, so the scans see the same program. -/
theorem keepsBrackets_mirrorByte : KeepsBrackets mirrorByte := by
  intro b
  unfold mirrorByte
  split
  next h => subst h; decide
  next =>
    split
    next h => subst h; decide
    next => exact ⟨Iff.rfl, Iff.rfl⟩

/-! ### Indices -/

section
variable {n p : Nat}

theorem mirrorIndex_zero (n : Nat) : mirrorIndex n 0 = 0 := Nat.mod_self n

theorem mirrorIndex_of_pos (hpos : 0 < p) (h : p < n) : mirrorIndex n p = n - p :=
  Nat.mod_eq_of_lt (Nat.sub_lt (hpos.trans h) hpos)

theorem mirrorIndex_lt (hn : 0 < n) (p : Nat) : mirrorIndex n p < n := Nat.mod_lt _ hn

theorem mirrorIndex_mirrorIndex (h : p < n) : mirrorIndex n (mirrorIndex n p) = p := by
  obtain rfl | hpos := p.eq_zero_or_pos
  · rw [mirrorIndex_zero, mirrorIndex_zero]
  · rw [mirrorIndex_of_pos hpos h, mirrorIndex_of_pos (by omega) (by omega)]
    omega

theorem mirrorIndex_inj {q : Nat} (hp : p < n) (hq : q < n) (h : mirrorIndex n p = mirrorIndex n q) : p = q := by
  rw [← mirrorIndex_mirrorIndex hp, h, mirrorIndex_mirrorIndex hq]

/-- Mirrored, the right neighbour is the left neighbour; the four cases are the two ends of the tape and the two sides
of each. -/
theorem mirrorIndex_indexRight (h : p < n) : mirrorIndex n (indexRight n p) = indexLeft n (mirrorIndex n p) := by
  have hlast : p + 1 = n ∨ p + 1 < n := by omega
  obtain rfl | hpos := p.eq_zero_or_pos
  · rw [mirrorIndex_zero, indexLeft_zero h]
    obtain hlast | hlt := hlast
    · rw [indexRight_of_last hlast, mirrorIndex_zero]
      omega
    · rw [indexRight_of_lt hlt, mirrorIndex_of_pos (by omega) hlt]
  · rw [mirrorIndex_of_pos hpos h, indexLeft_of_pos (by omega) (by omega)]
    obtain hlast | hlt := hlast
    · rw [indexRight_of_last hlast, mirrorIndex_zero]
      omega
    · rw [indexRight_of_lt hlt, mirrorIndex_of_pos (by omega) hlt]
      omega

theorem indexRight_lt (hn : 0 < n) (p : Nat) : indexRight n p < n := Nat.mod_lt _ hn

theorem indexLeft_lt (hn : 0 < n) (p : Nat) : indexLeft n p < n := Nat.mod_lt _ hn

/-- The mirror of `mirrorIndex_indexRight`, since mirroring twice changes nothing. -/
theorem mirrorIndex_indexLeft (h : p < n) : mirrorIndex n (indexLeft n p) = indexRight n (mirrorIndex n p) := by
  have hn : 0 < n := Nat.zero_lt_of_lt h
  have hright := mirrorIndex_indexRight (mirrorIndex_lt hn p)
  rw [mirrorIndex_mirrorIndex h] at hright
  rw [← hright, mirrorIndex_mirrorIndex (indexRight_lt hn _)]

end

/-! ### What the mirrored state shows -/

theorem State.Inv.tapeLen_pos {s : State} (h : s.Inv) : 0 < s.tapeLen := h.1

theorem State.Inv.dp_lt {s : State} (h : s.Inv) : s.dp < s.tapeLen := h.2.1

theorem State.Inv.tape_wf {s : State} (h : s.Inv) : Memory.wf s.tape = true := by
  obtain ⟨-, -, -, -, -, hwf, -⟩ := h
  exact hwf

section
variable {s m : State} (h : s.Mirrored m)
include h

theorem State.Mirrored.launch_eq : m.launch = s.launch.mirror := h.1

theorem State.Mirrored.tapeLen_eq : m.tapeLen = s.tapeLen := by rw [State.tapeLen, h.launch_eq]; rfl

theorem State.Mirrored.policy_eq : m.policy = s.policy := by rw [State.policy, h.launch_eq]; rfl

theorem State.Mirrored.input_eq : m.input = s.input := by rw [State.input, h.launch_eq]; rfl

theorem State.Mirrored.inputLen_eq : m.inputLen = s.inputLen := by rw [State.inputLen, h.launch_eq]; rfl

theorem State.Mirrored.prog_eq : m.prog = s.prog.map mirrorByte := by rw [State.prog, h.launch_eq]; rfl

theorem State.Mirrored.status_eq : m.status = s.status := by
  obtain ⟨-, -, -, -, -, -, hstatus, -⟩ := h
  exact hstatus

theorem State.Mirrored.ip_eq : m.ip = s.ip := by
  obtain ⟨-, -, -, hip, -⟩ := h
  exact hip

theorem State.Mirrored.ic_eq : m.ic = s.ic := by
  obtain ⟨-, -, -, -, hic, -⟩ := h
  exact hic

theorem State.Mirrored.dp_eq : m.dp = mirrorIndex s.tapeLen s.dp := by
  obtain ⟨-, hdp, -⟩ := h
  exact hdp

theorem State.Mirrored.dp_lt (hinv : s.Inv) : m.dp < m.tapeLen := by
  rw [h.dp_eq, h.tapeLen_eq]
  exact mirrorIndex_lt hinv.tapeLen_pos _

theorem State.Mirrored.currentCell_eq (hinv : s.Inv) : m.cell m.dp = s.cell s.dp := by
  obtain ⟨-, hdp, hcells, -⟩ := h
  rw [hdp, hcells _ hinv.dp_lt]

theorem State.Mirrored.result_eq : m.result = s.result := by
  obtain ⟨-, -, -, -, -, hout, hstatus, hfault⟩ := h
  rw [State.result, State.result, hstatus, hout, hfault]

/-! ### The state's operations keep the mirror -/

theorem State.Mirrored.setIp (q : Nat) : (s.setIp q).Mirrored (m.setIp q) := by
  obtain ⟨hlaunch, hdp, hcells, -, hrest⟩ := h
  exact ⟨hlaunch, hdp, hcells, rfl, hrest⟩

theorem State.Mirrored.advance : s.advance.Mirrored m.advance := by
  rw [State.advance, State.advance, h.ip_eq]
  exact h.setIp _

theorem State.Mirrored.setIc (q : Nat) : (s.setIc q).Mirrored (m.setIc q) := by
  obtain ⟨hlaunch, hdp, hcells, hip, -, hrest⟩ := h
  exact ⟨hlaunch, hdp, hcells, hip, rfl, hrest⟩

theorem State.Mirrored.setDp {q q' : Nat} (hq : q' = mirrorIndex s.tapeLen q) : (s.setDp q).Mirrored (m.setDp q') := by
  obtain ⟨hlaunch, -, hrest⟩ := h
  exact ⟨hlaunch, hq, hrest⟩

theorem State.Mirrored.outAppend (v : Byte) : (s.outAppend v).Mirrored (m.outAppend v) := by
  obtain ⟨hlaunch, hdp, hcells, hip, hic, hout, hrest⟩ := h
  exact ⟨hlaunch, hdp, hcells, hip, hic, congrArg (· ++ [v]) hout, hrest⟩

theorem State.Mirrored.halt : s.halt.Mirrored m.halt := by
  obtain ⟨hlaunch, hdp, hcells, hip, hic, hout, -, hfault⟩ := h
  exact ⟨hlaunch, hdp, hcells, hip, hic, hout, rfl, hfault⟩

theorem State.Mirrored.raise (r : FaultRecord) : (s.raise r).Mirrored (m.raise r) := by
  obtain ⟨hlaunch, hdp, hcells, hip, hic, hout, -, -⟩ := h
  exact ⟨hlaunch, hdp, hcells, hip, hic, hout, rfl, rfl⟩

/-- A store goes to the current cell of both, and mirroring keeps every other cell apart from it. -/
theorem State.Mirrored.setCell (hinv : s.Inv) (hwf : Memory.wf m.tape = true) (v : Byte) : (s.setCell v).Mirrored (m.setCell v) := by
  obtain ⟨hlaunch, hdp, hcells, hrest⟩ := h
  refine ⟨hlaunch, hdp, fun a (ha : a < s.tapeLen) => ?_, hrest⟩
  change (m.setCell v).cell (mirrorIndex s.tapeLen a) = _
  by_cases hcur : a = s.dp
  · rw [hcur, ← hdp, State.setCell_cell_same hwf, State.setCell_cell_same hinv.tape_wf]
  · have hcur' : mirrorIndex s.tapeLen a ≠ m.dp := fun heq => hcur (mirrorIndex_inj ha hinv.dp_lt (heq.trans hdp))
    rw [State.setCell_cell_other hcur', State.setCell_cell_other hcur, hcells a ha]

/-! ### The instructions and the step -/

theorem State.Mirrored.progRead_eq : progRead m.prog m.ip = (progRead s.prog s.ip).map mirrorByte := by
  rw [h.prog_eq, h.ip_eq]
  exact List.getElem?_map

theorem State.Mirrored.resolve_eq (c v : Byte) : resolve c v m.ip m.prog = resolve c v s.ip s.prog := by
  rw [h.prog_eq, h.ip_eq]
  exact keepsBrackets_mirrorByte.resolve c v s.ip s.prog

theorem State.Mirrored.fetch_instr {i : Instr} (hi : fetch s = .instr i) : fetch m = .instr i.mirror := by
  have hread := h.progRead_eq
  rw [progRead_of_fetch_instr hi, Option.map_some, mirrorByte_encode] at hread
  exact Machine.fetch_instr.mpr ⟨_, hread, decode_encode _⟩

theorem State.Mirrored.fetch_illegal {b : Byte} (hb : fetch s = .illegal b) : fetch m = .illegal b := by
  obtain ⟨hread, hinvalid⟩ := Machine.fetch_illegal.mp hb
  have hread' := h.progRead_eq
  rw [hread, Option.map_some, mirrorByte_of_invalid (by simp [hinvalid])] at hread'
  exact Machine.fetch_illegal.mpr ⟨hread', hinvalid⟩

theorem State.Mirrored.fetch_endOfProgram (hend : fetch s = .endOfProgram) : fetch m = .endOfProgram := by
  have hlen : m.progLen = s.progLen := (congrArg List.length h.prog_eq).trans (List.length_map _)
  rw [Machine.fetch_endOfProgram] at hend ⊢
  rw [hlen, h.ip_eq]
  exact hend

theorem State.Mirrored.inputMissing (hmissing : s.InputMissing) : m.InputMissing := by
  rw [State.InputMissing, h.policy_eq, h.inputLen_eq, h.ic_eq]
  exact hmissing

theorem State.Mirrored.cursorGoesTo {n : Nat} (hn : s.CursorGoesTo n) : m.CursorGoesTo n := by
  rw [State.CursorGoesTo, h.policy_eq, h.inputLen_eq, h.ic_eq]
  exact hn

section
variable (hinv : s.Inv) (hwf : Memory.wf m.tape = true)
include hinv

theorem State.Mirrored.jumpBy {c : Byte} {t : State} (hnext : jumpBy c s = .next t) :
    ∃ u, jumpBy c m = .next u ∧ t.Mirrored u := by
  have hresolve : Machine.resolve c (m.cell m.dp) m.ip m.prog = Machine.resolve c (s.cell s.dp) s.ip s.prog := by
    rw [h.currentCell_eq hinv, h.resolve_eq]
  obtain ⟨-, ⟨q, hq, rfl⟩ | ⟨hnone, rfl⟩⟩ := jumpBy_next hnext
  · exact ⟨_, jumpBy_of_resolve_some (h.dp_lt hinv) (hresolve.trans hq), (h.setIp q).advance⟩
  · refine ⟨_, jumpBy_of_resolve_none (h.dp_lt hinv) (hresolve.trans hnone), ?_⟩
    rw [h.ip_eq]
    exact h.raise _

include hwf

theorem State.Mirrored.addToCell {d : Byte} {t : State} (hnext : addToCell d s = .next t) :
    ∃ u, addToCell d m = .next u ∧ t.Mirrored u := by
  obtain ⟨-, rfl⟩ := addToCell_next hnext
  refine ⟨_, addToCell_of_lt (h.dp_lt hinv), ?_⟩
  rw [h.currentCell_eq hinv]
  exact (h.setCell hinv hwf _).advance

theorem State.Mirrored.execInput {t : State} (hnext : execInput s = .next t) :
    ∃ u, execInput m = .next u ∧ t.Mirrored u := by
  have hd' : m.dp < m.tapeLen := h.dp_lt hinv
  have hend (hge : s.inputLen ≤ s.ic) : m.inputLen ≤ m.ic := by
    rw [h.inputLen_eq, h.ic_eq]
    exact hge
  have hstore (v : Byte) : (s.setCell v).Mirrored (m.setCell v) := h.setCell hinv hwf v
  rcases execInput_next hnext with ⟨hmissing, rfl⟩ | ⟨b, n, hb, -, hn, rfl⟩ | ⟨hp, hge, -, rfl⟩ | ⟨hp, hge, rfl⟩
  · refine ⟨_, execInput_of_missing (h.inputMissing hmissing), ?_⟩
    rw [h.ip_eq]
    exact h.raise _
  · have hb' : m.input[m.ic]? = some b := by rw [h.input_eq, h.ic_eq, hb]
    exact ⟨_, execInput_of_getElem? hb' hd' (h.cursorGoesTo hn), ((hstore b).setIc n).advance⟩
  · exact ⟨_, execInput_of_zero_at_end (h.policy_eq.trans hp) (hend hge) hd', (hstore 0).advance⟩
  · exact ⟨_, execInput_of_unchanged_at_end (h.policy_eq.trans hp) (hend hge), h.advance⟩

/-- The mirrored machine runs the instruction with the moves exchanged. -/
theorem State.Mirrored.exec {i : Instr} {t : State} (hnext : exec i s = .next t) :
    ∃ u, exec i.mirror m = .next u ∧ t.Mirrored u := by
  cases i with
  | add | subtract => exact h.addToCell hinv hwf hnext
  | moveRight =>
    obtain rfl := movePointer_next hnext
    refine ⟨_, rfl, (h.setDp ?_).advance⟩
    rw [mirrorIndex_indexRight hinv.dp_lt, h.dp_eq, h.tapeLen_eq]
  | moveLeft =>
    obtain rfl := movePointer_next hnext
    refine ⟨_, rfl, (h.setDp ?_).advance⟩
    rw [mirrorIndex_indexLeft hinv.dp_lt, h.dp_eq, h.tapeLen_eq]
  | output =>
    obtain ⟨-, rfl⟩ := execOutput_next hnext
    refine ⟨_, execOutput_of_lt (h.dp_lt hinv), ?_⟩
    rw [h.currentCell_eq hinv]
    exact (h.outAppend _).advance
  | input => exact h.execInput hinv hwf hnext
  | openBracket | closeBracket => exact h.jumpBy hinv hnext

theorem State.Mirrored.step {t : State} (hnext : step s = .next t) :
    ∃ u, step m = .next u ∧ t.Mirrored u := by
  obtain ⟨hrun, ⟨hend, rfl⟩ | ⟨b, hb, rfl⟩ | ⟨i, hi, he⟩⟩ := step_next hnext
  · exact ⟨_, step_of_endOfProgram (h.status_eq.trans hrun) (h.fetch_endOfProgram hend), h.halt⟩
  · refine ⟨_, step_of_illegal (h.status_eq.trans hrun) (h.fetch_illegal hb), ?_⟩
    rw [h.ip_eq]
    exact h.raise _
  · rw [step_of_instr (h.status_eq.trans hrun) (h.fetch_instr hi)]
    exact h.exec hinv hwf he

end

end

/-! ### Runs -/

theorem State.start_mirrored (l : Launch) : (State.start l).Mirrored (State.start l.mirror) :=
  ⟨rfl, (mirrorIndex_zero _).symm, fun _ _ => rfl, rfl, rfl, rfl, rfl, rfl⟩

/-- A step of the original is matched by the step of `State.Mirrored.step`; where the original has none, it is not in
Running, and neither is the mirrored machine. -/
theorem State.Mirrored.runFor (n : Nat) {s m : State} (h : s.Mirrored m) (hinv : s.Inv) (hinv' : m.Inv) :
    (runFor n s).Mirrored (runFor n m) := by
  induction n generalizing s m with
  | zero => exact h
  | succ n ih =>
    by_cases hrun : s.status = .running
    · obtain ⟨t, ht⟩ := runningStateHasASuccessor s hinv hrun
      obtain ⟨u, hu, htu⟩ := h.step hinv hinv'.tape_wf ht
      rw [runFor_succ_next ht, runFor_succ_next hu]
      exact ih htu (stepKeepsTheInvariants s t hinv ht) (stepKeepsTheInvariants m u hinv' hu)
    · have hrun' : m.status ≠ .running := h.status_eq ▸ hrun
      rw [runFor_of_no_next (step_ne_next_of_not_running hrun),
        runFor_of_no_next (step_ne_next_of_not_running hrun')]
      exact h

end Sys2Proof.Machine

open Sys2Proof Sys2Proof.Machine

/-- Settles O44: every operation of a step keeps the mirror, and the moves exchange the two neighbours. -/
theorem mirroredStateStepsAlike : Obligations.MirroredStateStepsAlike :=
  fun _ _ _ hinv hwf h hnext => h.step hinv hwf hnext

/-- Settles O45: the two start states are mirrored, so the two last states are, and a result does not show the tape. -/
theorem moveDirectionIsUnobservable : Obligations.MoveDirectionIsUnobservable := by
  intro l n hl
  have hlast := (State.start_mirrored l).runFor n (State.start_inv hl) (State.start_inv (Launch.mirror_wellFormed hl))
  exact hlast.result_eq
end
